-- ==== Sys2Proof/Word.lean ====
section
/-! DEFINITION. The data word of the block (00_scope.md R4, R7, R11): 16 bits, unsigned, bit 0 least significant. -/

namespace Sys2Proof

/-- A 16-bit unsigned value: the width `W` of the counter, the capture register and the rise timestamp (R4), the width
`DIST_W` of the distance (R6) and the width `DATA_W` of the register port (R7). -/
abbrev Word := BitVec 16

/-- A word address of the register space, `ADDR_W` = 3 bits (R7, 20_memory.md R40). -/
abbrev Addr := BitVec 3

end Sys2Proof
end

