-- ==== Sys2Proof/Syntax.lean ====
section
/-! DEFINITION. The syntax of the block: formats and words (30_encoding.md R60 to R65), the 27 operations (R67), the events
the environment presents (00_scope.md R12, the trace lines of 30_encoding.md R70), the foreground agent's actions (R71) and the
input ports of one clock edge (10_state.md R37, 60_exceptions.md R126). -/

namespace Sys2Proof

/-- The five formats, one per agent (30_encoding.md R60). -/
inductive Fmt where
  /-- The counter's format, R61. -/
  | T
  /-- The reset format, R65. -/
  | R
  /-- The edge detector's format, R62. -/
  | P
  /-- The distance pipeline's format, R63. -/
  | H
  /-- The bus port's format, R64. -/
  | B
deriving DecidableEq, Repr

/-- A word of a format, as the bits of its agent's inputs (R60). The bits are a number because the five widths differ;
`FmtWord.wf` says that they fit. -/
structure FmtWord where
  fmt  : Fmt
  bits : Nat
deriving DecidableEq, Repr

/-- The two-state edge machine (10_state.md R29). -/
inductive EdgeState where
  /-- Code 0: no rise timestamp is waiting for its fall. -/
  | awaitingRise
  /-- Code 1: `RISE_TS` holds a rise timestamp no falling edge has consumed. -/
  | awaitingFall
deriving DecidableEq, Repr, Inhabited

/-- The operations of the block, one per row of the opcode map (30_encoding.md R67). Only the handler's operations keep an
operand, `capt` (R63); after decode a bus operation has none (R66). -/
inductive Instr where
  | tick
  | reset
  | noEdgeLow
  | edgeRise
  | edgeFall
  | noEdgeHigh
  | handleRise (capt : Word)
  | handleFall (capt : Word)
  | hIdle
  | rdCnt
  | rdCapt
  | rdStatus
  | rdDist
  | rdTrig
  | rdRsvd5
  | rdRsvd6
  | rdRsvd7
  | wrIgn0
  | wrIgn1
  | wrStatusNop
  | clrSeqErr
  | wrIgn3
  | trigDeassert
  | trigAssert
  | wrIgn5
  | wrIgn6
  | wrIgn7
deriving DecidableEq, Repr, Inhabited

/-- Why a word selects no operation. No word of a format's width but the T and R word 0 is one of these (R68). -/
inductive Reject where
  /-- T or R word 0: "no step" (30_encoding.md R61, R65). -/
  | noStep (f : Fmt)
  /-- The number has a bit above the format's width (R60), so it is no word of the format. -/
  | tooWide (f : Fmt)
deriving DecidableEq, Repr

/-- One entry of the schedule: which agent moves next and the inputs the environment gives it (00_scope.md R12, R13). The
lines of the trace syntax (30_encoding.md R70) are the first five. -/
inductive Event where
  /-- `TICK`: the tick strobe. -/
  | tick
  /-- `RESET` (`none`) or `RESET c` (`some c`: the value `CNT_RESET` takes in this step, R70, R140). -/
  | reset (cntReset : Option Word)
  /-- `ECHO l`: the echo line is sampled at level `l` (40_counter_and_capture.md R81). -/
  | sample (level : Bool)
  /-- `HANDLE`: the pipeline's turn (41_distance_pipeline.md R90). -/
  | handle
  /-- `RD r` or `WR r, v`: one bus operation (42_bus_and_trigger.md R100). -/
  | bus (we : Bool) (addr : Addr) (wdata : Word)
  /-- The foreground agent's turn: it takes the next action of its own program (42_bus_and_trigger.md R113). -/
  | foreground
deriving DecidableEq, Repr, Inhabited

/-- Which variable of the foreground agent a read goes to (42_bus_and_trigger.md R113, R116). -/
inductive Slot where
  /-- `d` of `RD DIST -> d`. -/
  | d
  /-- `s` of `RD STATUS -> s`. -/
  | s
deriving DecidableEq, Repr

/-- One action of the foreground agent's program (30_encoding.md R71, 42_bus_and_trigger.md R113 to R116). -/
inductive Action where
  /-- `WR r, v`. -/
  | write (addr : Addr) (v : Word)
  /-- `RD r -> x`. -/
  | read (addr : Addr) (dst : Slot)
  /-- `DELAY n`: no bus operation until at least `n` more `TICK`s have occurred (R114). -/
  | delay (n : Nat)
  /-- `EMIT d` (R115). -/
  | emit
  /-- `if s[3] = 1 then CLRERR and emit nothing, else EMIT d` (R116, step 7). -/
  | clearOrEmit
deriving DecidableEq, Repr

/-- The inputs of the block at one clock edge of a clocked implementation (10_state.md R37; 60_exceptions.md R126). -/
structure Ports where
  /-- `rst`: the reset request. -/
  rst : Bool
  /-- `tick`: the counter advance strobe. -/
  tick : Bool
  /-- `echo_in`: the level of the echo line. -/
  echoIn : Bool
  /-- Whether the echo line is sampled on this edge. -/
  sampled : Bool
  /-- `bus_sel`: a bus operation is presented. -/
  busSel : Bool
  /-- `bus_we`: 1 = write. -/
  busWe : Bool
  /-- `bus_addr`. -/
  busAddr : Addr
  /-- `bus_wdata`. -/
  busWdata : Word
  /-- Whether the pipeline commits on this edge, if an event was pending before it. -/
  commit : Bool
deriving DecidableEq, Repr

end Sys2Proof
end

