-- ==== Sys2Proof/WellFormed.lean ====
section
/-! DEFINITION. Which terms are well formed. A word is well formed when its bits fit its format and it is not the word that is "no
step" (30_encoding.md R60, R61, R65). Every term of `Instr` is well formed by its type: its one operand, `capt`, is exactly 16 bits
(R63), so there is no check to state on `Instr`. -/

namespace Sys2Proof

/-- The width of a format in bits (30_encoding.md R60). -/
def Fmt.width : Fmt → Nat
  | .T => 1
  | .R => 1
  | .P => 2
  | .H => 18
  | .B => 20

/-- The bits fit the width of the format. -/
def FmtWord.fits (w : FmtWord) : Bool := decide (w.bits < 2 ^ w.fmt.width)

/-- The word is not "no step": T and R word 0 are not operations (R61, R65). -/
def FmtWord.isStep (w : FmtWord) : Bool :=
  match w.fmt with
  | .T => decide (w.bits ≠ 0)
  | .R => decide (w.bits ≠ 0)
  | .P => true
  | .H => true
  | .B => true

/-- A well-formed word: one that selects an operation (R68). -/
def FmtWord.wf (w : FmtWord) : Bool := w.fits && w.isStep

end Sys2Proof
end

