-- ==== Sys2Proof/Decode.lean ====
section
/-! DEFINITION. Decoding (30_encoding.md R61 to R68): total on any bits, rejecting by name; the encoder; the opcode map as data; and the
word numbering the host asks with. -/

namespace Sys2Proof

/-- Format T (R61): word 1 is `TICK`, word 0 is no step. -/
def decodeT (w : BitVec 1) : Except Reject Instr :=
  if w.getLsbD 0 then .ok .tick else .error (.noStep .T)

/-- Format R (R65): word 1 is `RESET`, word 0 is no step. -/
def decodeR (w : BitVec 1) : Except Reject Instr :=
  if w.getLsbD 0 then .ok .reset else .error (.noStep .R)

/-- Format P (R62): bit 1 `prev` is `ECHO_SYNC`, bit 0 `lvl` the sampled level. -/
def decodeP (w : BitVec 2) : Instr :=
  match w.getLsbD 1, w.getLsbD 0 with
  | false, false => .noEdgeLow
  | false, true  => .edgeRise
  | true,  false => .edgeFall
  | true,  true  => .noEdgeHigh

/-- Format H (R63): bit 17 `flag`, bit 16 `pol`, bits 15:0 `capt`. -/
def decodeH (w : BitVec 18) : Instr :=
  match w.getLsbD 17, w.getLsbD 16 with
  | true,  true  => .handleRise (w.extractLsb' 0 16)
  | true,  false => .handleFall (w.extractLsb' 0 16)
  | false, true  => .hIdle
  | false, false => .hIdle

/-- The reads of format B by word address (R67 rows 10 to 17); `wdata` is ignored by every read (R64). -/
def decodeRead (a : Addr) : Instr :=
  match a.getLsbD 2, a.getLsbD 1, a.getLsbD 0 with
  | false, false, false => .rdCnt
  | false, false, true  => .rdCapt
  | false, true,  false => .rdStatus
  | false, true,  true  => .rdDist
  | true,  false, false => .rdTrig
  | true,  false, true  => .rdRsvd5
  | true,  true,  false => .rdRsvd6
  | true,  true,  true  => .rdRsvd7

/-- The writes of format B by word address and write data (R67 rows 18 to 27): a write of `STATUS` is decided by `wdata[3]`, a
write of `TRIGR` by `wdata[0]` (R66). -/
def decodeWrite (a : Addr) (v : Word) : Instr :=
  match a.getLsbD 2, a.getLsbD 1, a.getLsbD 0 with
  | false, false, false => .wrIgn0
  | false, false, true  => .wrIgn1
  | false, true,  false => if v.getLsbD 3 then .clrSeqErr else .wrStatusNop
  | false, true,  true  => .wrIgn3
  | true,  false, false => if v.getLsbD 0 then .trigAssert else .trigDeassert
  | true,  false, true  => .wrIgn5
  | true,  true,  false => .wrIgn6
  | true,  true,  true  => .wrIgn7

/-- One bus operation by its three fields (R64, R100). -/
def decodeBus (we : Bool) (a : Addr) (v : Word) : Instr :=
  if we then decodeWrite a v else decodeRead a

/-- Format B (R64): bit 19 `we`, bits 18:16 `addr`, bits 15:0 `wdata`. -/
def decodeB (w : BitVec 20) : Instr :=
  decodeBus (w.getLsbD 19) (w.extractLsb' 16 3) (w.extractLsb' 0 16)

/-- The decoder, total on any bits of any format (R68). -/
def decode (w : FmtWord) : Except Reject Instr :=
  if w.fits then
    match w.fmt with
    | .T => decodeT (BitVec.ofNat 1 w.bits)
    | .R => decodeR (BitVec.ofNat 1 w.bits)
    | .P => .ok (decodeP (BitVec.ofNat 2 w.bits))
    | .H => .ok (decodeH (BitVec.ofNat 18 w.bits))
    | .B => .ok (decodeB (BitVec.ofNat 20 w.bits))
  else .error (.tooWide w.fmt)

/-- The canonical word of an operation: its pattern of R67 with 0 in every bit the operation ignores (R64). -/
def encode : Instr → FmtWord
  | .tick         => ⟨.T, 0x1⟩
  | .reset        => ⟨.R, 0x1⟩
  | .noEdgeLow    => ⟨.P, 0x0⟩
  | .edgeRise     => ⟨.P, 0x1⟩
  | .edgeFall     => ⟨.P, 0x2⟩
  | .noEdgeHigh   => ⟨.P, 0x3⟩
  | .handleRise c => ⟨.H, 0x30000 + c.toNat⟩
  | .handleFall c => ⟨.H, 0x20000 + c.toNat⟩
  | .hIdle        => ⟨.H, 0x00000⟩
  | .rdCnt        => ⟨.B, 0x00000⟩
  | .rdCapt       => ⟨.B, 0x10000⟩
  | .rdStatus     => ⟨.B, 0x20000⟩
  | .rdDist       => ⟨.B, 0x30000⟩
  | .rdTrig       => ⟨.B, 0x40000⟩
  | .rdRsvd5      => ⟨.B, 0x50000⟩
  | .rdRsvd6      => ⟨.B, 0x60000⟩
  | .rdRsvd7      => ⟨.B, 0x70000⟩
  | .wrIgn0       => ⟨.B, 0x80000⟩
  | .wrIgn1       => ⟨.B, 0x90000⟩
  | .wrStatusNop  => ⟨.B, 0xA0000⟩
  | .clrSeqErr    => ⟨.B, 0xA0008⟩
  | .wrIgn3       => ⟨.B, 0xB0000⟩
  | .trigDeassert => ⟨.B, 0xC0000⟩
  | .trigAssert   => ⟨.B, 0xC0001⟩
  | .wrIgn5       => ⟨.B, 0xD0000⟩
  | .wrIgn6       => ⟨.B, 0xE0000⟩
  | .wrIgn7       => ⟨.B, 0xF0000⟩

/-- One row of the opcode map (R67): a word `w` of the format selects the row iff `(w AND mask) == match`. -/
structure OpRow where
  mnemonic : String
  fmt      : Fmt
  matchBits : Nat
  mask     : Nat
deriving DecidableEq, Repr

/-- Rows 1 to 9 of R67: formats T, R, P and H. -/
def opRowsInside : List OpRow :=
  [⟨"TICK", .T, 0x1, 0x1⟩, ⟨"RESET", .R, 0x1, 0x1⟩,
   ⟨"NO_EDGE_LOW", .P, 0x0, 0x3⟩, ⟨"EDGE_RISE", .P, 0x1, 0x3⟩, ⟨"EDGE_FALL", .P, 0x2, 0x3⟩, ⟨"NO_EDGE_HIGH", .P, 0x3, 0x3⟩,
   ⟨"HANDLE_RISE", .H, 0x30000, 0x30000⟩, ⟨"HANDLE_FALL", .H, 0x20000, 0x30000⟩, ⟨"H_IDLE", .H, 0x00000, 0x20000⟩]

/-- Rows 10 to 17 of R67: the bus reads. -/
def opRowsRead : List OpRow :=
  [⟨"RD_CNT", .B, 0x00000, 0xF0000⟩, ⟨"RD_CAPT", .B, 0x10000, 0xF0000⟩, ⟨"RD_STATUS", .B, 0x20000, 0xF0000⟩,
   ⟨"RD_DIST", .B, 0x30000, 0xF0000⟩, ⟨"RD_TRIG", .B, 0x40000, 0xF0000⟩, ⟨"RD_RSVD5", .B, 0x50000, 0xF0000⟩,
   ⟨"RD_RSVD6", .B, 0x60000, 0xF0000⟩, ⟨"RD_RSVD7", .B, 0x70000, 0xF0000⟩]

/-- Rows 18 to 27 of R67: the bus writes. -/
def opRowsWrite : List OpRow :=
  [⟨"WR_IGN0", .B, 0x80000, 0xF0000⟩, ⟨"WR_IGN1", .B, 0x90000, 0xF0000⟩, ⟨"WR_STATUS_NOP", .B, 0xA0000, 0xF0008⟩,
   ⟨"CLR_SEQ_ERR", .B, 0xA0008, 0xF0008⟩, ⟨"WR_IGN3", .B, 0xB0000, 0xF0000⟩, ⟨"TRIG_DEASSERT", .B, 0xC0000, 0xF0001⟩,
   ⟨"TRIG_ASSERT", .B, 0xC0001, 0xF0001⟩, ⟨"WR_IGN5", .B, 0xD0000, 0xF0000⟩, ⟨"WR_IGN6", .B, 0xE0000, 0xF0000⟩,
   ⟨"WR_IGN7", .B, 0xF0000, 0xF0000⟩]

/-- The opcode map, R67, row by row. -/
def opTable : List OpRow := opRowsInside ++ opRowsRead ++ opRowsWrite

/-- A word selects a row (R67). -/
def OpRow.selects (r : OpRow) (w : FmtWord) : Bool := r.fmt == w.fmt && (w.bits &&& r.mask) == r.matchBits

/-- The operation's mnemonic in the opcode map (R67). -/
def mnemonicOf : Instr → String
  | .tick         => "TICK"
  | .reset        => "RESET"
  | .noEdgeLow    => "NO_EDGE_LOW"
  | .edgeRise     => "EDGE_RISE"
  | .edgeFall     => "EDGE_FALL"
  | .noEdgeHigh   => "NO_EDGE_HIGH"
  | .handleRise _ => "HANDLE_RISE"
  | .handleFall _ => "HANDLE_FALL"
  | .hIdle        => "H_IDLE"
  | .rdCnt        => "RD_CNT"
  | .rdCapt       => "RD_CAPT"
  | .rdStatus     => "RD_STATUS"
  | .rdDist       => "RD_DIST"
  | .rdTrig       => "RD_TRIG"
  | .rdRsvd5      => "RD_RSVD5"
  | .rdRsvd6      => "RD_RSVD6"
  | .rdRsvd7      => "RD_RSVD7"
  | .wrIgn0       => "WR_IGN0"
  | .wrIgn1       => "WR_IGN1"
  | .wrStatusNop  => "WR_STATUS_NOP"
  | .clrSeqErr    => "CLR_SEQ_ERR"
  | .wrIgn3       => "WR_IGN3"
  | .trigDeassert => "TRIG_DEASSERT"
  | .trigAssert   => "TRIG_ASSERT"
  | .wrIgn5       => "WR_IGN5"
  | .wrIgn6       => "WR_IGN6"
  | .wrIgn7       => "WR_IGN7"

/-- The bits of a word that the selected operation does not ignore: the fixed bits of its row, and `capt` of the two handler
operations (R63, R64). -/
def usedBits : Instr → Nat
  | .tick         => 0x1
  | .reset        => 0x1
  | .noEdgeLow    => 0x3
  | .edgeRise     => 0x3
  | .edgeFall     => 0x3
  | .noEdgeHigh   => 0x3
  | .handleRise _ => 0x3FFFF
  | .handleFall _ => 0x3FFFF
  | .hIdle        => 0x20000
  | .wrStatusNop  => 0xF0008
  | .clrSeqErr    => 0xF0008
  | .trigDeassert => 0xF0001
  | .trigAssert   => 0xF0001
  | .rdCnt        => 0xF0000
  | .rdCapt       => 0xF0000
  | .rdStatus     => 0xF0000
  | .rdDist       => 0xF0000
  | .rdTrig       => 0xF0000
  | .rdRsvd5      => 0xF0000
  | .rdRsvd6      => 0xF0000
  | .rdRsvd7      => 0xF0000
  | .wrIgn0       => 0xF0000
  | .wrIgn1       => 0xF0000
  | .wrIgn3       => 0xF0000
  | .wrIgn5       => 0xF0000
  | .wrIgn6       => 0xF0000
  | .wrIgn7       => 0xF0000

/-- The format a word of `nbits` bits is read in. The table's rows are 1, 1, 2, 18 and 20 bits wide, so 8 bits (in whole bytes) are
shared by T, R and P, 24 by H and B, and 1 by T and R. DESIGN CHOICE: 8 bits are read as format P, 24 as format B, 1 as
format T. Log 8. -/
def fmtOfBits (nbits : Nat) : Option Fmt :=
  match nbits with
  | 1  => some .T
  | 2  => some .P
  | 8  => some .P
  | 18 => some .H
  | 20 => some .B
  | 24 => some .B
  | _  => none

/-- The instruction the decoder reads from a word as the opcode table numbers its bits (R11: bit 0 least significant). Log 8. -/
def decodeTableWord (nbits w : Nat) : Option Instr :=
  match fmtOfBits nbits with
  | none   => none
  | some f =>
    match decode ⟨f, w⟩ with
    | .ok i    => some i
    | .error _ => none

end Sys2Proof
end

