-- ==== Sys2Proof/Config.lean ====
section
/-! DEFINITION. What is fixed for this hardware (00_scope.md R4 to R10) and the values the spec leaves open (free values: no body). -/

namespace Sys2Proof.Config

/-- `DIVISOR`, the calibration divisor, "a fixed constant" wired into the pipeline (R5). -/
def divisor : Nat := 58

/-- The modulus of the counter, 2^`W` with `W` = 16 (R4). -/
def modulus : Nat := 65536

/-- `PULSE_HOLD_TICKS` (R9): the least number of ticks the foreground agent holds the trigger. -/
def pulseHoldTicks : Nat := 10

/-- `CYCLE_WAIT_TICKS` (R9): the least number of ticks the foreground agent waits for the echo. -/
def cycleWaitTicks : Nat := 500000

/-- `TICK_PERIOD` in nanoseconds, nominal (R8). No rule of state reads it; it converts the durations of R9 and R153. -/
def tickPeriodNs : Nat := 1000

/-- `CNT_RESET`, the open parameter of R10: the value a `RESET` leaves in the counter. A free value, one for each number of
values drawn before, because "two `RESET` steps may leave different `CNT` values" (70_reset_and_hazards.md R140). Log 1. -/
opaque cntReset : Nat → Word

/-- The event the environment presents when nothing is scheduled: any agent may take the next step, with any input
(00_scope.md R13, 40_counter_and_capture.md R81, 93_implementation_defined.md U12). A free value. Log 3. -/
opaque nextEvent : Nat → Event

end Sys2Proof.Config
end

