-- ==== Sys2Proof/Machine/Programs.lean ====
section
/-! DEFINITION. The foreground agent's programs and the pseudo-operations of the trace syntax (30_encoding.md R70, R71;
42_bus_and_trigger.md R113, R116). -/

namespace Sys2Proof.Machine

/-- Register names stand for addresses (30_encoding.md R70; 20_memory.md R41). -/
def addrCnt : Addr := 0
/-- `CAPT` = 1 (R70). -/
def addrCapt : Addr := 1
/-- `STATUS` = 2 (R70). -/
def addrStatus : Addr := 2
/-- `DIST` = 3 (R70). -/
def addrDist : Addr := 3
/-- `TRIGR` = 4 (R70). -/
def addrTrigr : Addr := 4

/-- `PING` = `ASSERT`; `DELAY 10`; `DEASSERT` (R71). -/
def ping : List Action :=
  [.write addrTrigr 1, .delay Config.pulseHoldTicks, .write addrTrigr 0]

/-- `RUN_CYCLE` = `PING`; `DELAY 500000`; `RD DIST -> d`; `EMIT d` (R71, R113). -/
def runCycle : List Action :=
  ping ++ [.delay Config.cycleWaitTicks, .read addrDist .d, .emit]

/-- `RUN_CYCLE_CHK`: the cycle that reads `STATUS` after `DIST` and withholds a doubtful reading (R71, R116). -/
def runCycleChk : List Action :=
  ping ++ [.delay Config.cycleWaitTicks, .read addrDist .d, .read addrStatus .s, .clearOrEmit]

/-- `RD r` (R70). -/
def rd (a : Addr) : Event := .bus false a 0

/-- `WR r, v` (R70). -/
def wr (a : Addr) (v : Word) : Event := .bus true a v

/-- `TICK n` (R71). -/
def tickN (n : Nat) : List Event := List.replicate n .tick

/-- `ASSERT` = `WR TRIGR, 1` (R71). -/
def assertTrig : Event := wr addrTrigr 1

/-- `DEASSERT` = `WR TRIGR, 0` (R71). -/
def deassertTrig : Event := wr addrTrigr 0

/-- `CLRERR` = `WR STATUS, 0x0008` (R71). -/
def clrErr : Event := wr addrStatus 0x0008

/-- `ECHO_PULSE n` = `ECHO 1`; `HANDLE`; `TICK n`; `ECHO 0`; `HANDLE` (R71). -/
def echoPulse (n : Nat) : List Event :=
  [.sample true, .handle] ++ tickN n ++ [.sample false, .handle]

end Sys2Proof.Machine
end

