-- ==== Sys2Proof/Machine/State.lean ====
section
/-! DEFINITION. The state: the block's ten elements (10_state.md R20), the foreground agent outside it (R35, 42_bus_and_trigger.md R113 to
R116), and the plain data the deterministic step needs. -/

namespace Sys2Proof.Machine

/-- The foreground agent, outside the block (10_state.md R35 (b)). Log 6. -/
structure Foreground where
  /-- The loop body: `RUN_CYCLE` or `RUN_CYCLE_CHK` (R113, R116). -/
  prog    : List Action
  /-- The actions still to do in this iteration. -/
  rest    : List Action
  /-- The `TICK`s the current `DELAY` still owes (R114). -/
  waiting : Nat
  /-- `d`, the data of the last `RD DIST -> d`. -/
  d       : Word
  /-- `s`, the data of the last `RD STATUS -> s`. -/
  st      : Word
  /-- What was handed to the reporting collaborator, newest first (R115). -/
  emitted : List Word
deriving DecidableEq, Repr

/-- The machine's state: the ten elements of R20, the foreground agent, and the model's own fields. -/
@[ext]
structure State where
  /-- `CNT`, the free-running counter (R21). -/
  cnt       : Word
  /-- `ECHO_SYNC`, the level last sampled (R22). -/
  echoSync  : Bool
  /-- `CAPT`, the capture register (R23). -/
  capt      : Word
  /-- `POL`, 1 = rising (R24). -/
  pol       : Bool
  /-- `EDGE_FLAG`, an event is pending (R25). -/
  edgeFlag  : Bool
  /-- `RISE_TS`, the pending rise timestamp (R27). -/
  riseTs    : Word
  /-- `DIST`, the distance in centimetres (R28). -/
  dist      : Word
  /-- `EDGE_STATE` (R29). -/
  edgeState : EdgeState
  /-- `SEQ_ERR`, sticky (R30). -/
  seqErr    : Bool
  /-- `TRIG`, 1 = asserted (R31). -/
  trig      : Bool
  /-- The foreground agent (log 6). -/
  fg        : Foreground
  /-- The model's own: the result of the most recent bus read (42_bus_and_trigger.md R100; log 5). -/
  readData  : Option Word
  /-- The model's own: the value the environment chose for `CNT_RESET` in the `RESET` being presented (R70, R140; log 15). -/
  cntChoice : Option Word
  /-- The model's own: the events the environment presents, oldest first (log 3). -/
  schedule  : List Event
  /-- The model's own: how many free values have been drawn (log 1, log 3). -/
  drawn     : Nat
deriving DecidableEq, Repr

/-- Why the machine stops with a fault: never. "The block raises no synchronous exception of any kind" (60_exceptions.md R120), so
the type has no constructor. Log 9. -/
inductive Fault
deriving DecidableEq, Repr

/-- Why the machine gives no meaning. -/
inductive Refusal where
  /-- Raised by `exec` for an operation without a meaning. Safe. No arm raises it. -/
  | notModelled (mnemonic : String)
  /-- Raised by `perform` if the word an agent is presented selects no operation. Safe. No state and no event raise it, since an
  event presents no "no step" word and every other word is an operation (30_encoding.md R68, R69). Log 9. -/
  | noOperation (r : Reject)
deriving DecidableEq, Repr

/-- What a step answers. -/
abbrev Result := Host.Outcome State Fault Refusal

/-- The foreground agent before its first cycle: `RUN_CYCLE` at its first action (R113, R143). DESIGN CHOICE, log 6. -/
def Foreground.start : Foreground where
  prog    := runCycle
  rest    := runCycle
  waiting := 0
  d       := 0
  st      := 0
  emitted := []

/-- The state after a `RESET` step that left `c` in the counter (10_state.md R38), nothing else having happened yet. -/
def State.afterReset (c : Word) : State where
  cnt       := c
  echoSync  := false
  capt      := 0
  pol       := false
  edgeFlag  := false
  riseTs    := 0
  dist      := 0
  edgeState := .awaitingRise
  seqErr    := false
  trig      := false
  fg        := Foreground.start
  readData  := none
  cntChoice := none
  schedule  := []
  drawn     := 1

/-- The machine right after reset (10_state.md R38): every element 0 and `AwaitingRise`, and `CNT` at `CNT_RESET`, the open
parameter. DESIGN CHOICE: the free value `Config.cntReset 0`. Log 1. -/
def State.reset : State := State.afterReset (Config.cntReset 0)

end Sys2Proof.Machine
end

