-- ==== Sys2Proof/Machine/Flags.lean ====
section
/-! DEFINITION. The one-bit elements: their codes, the composite views `STATUS` and `TRIGR` (10_state.md R29, R32, R33), and the sequence-error and edge-machine
rules (41_distance_pipeline.md R91, R92, R99). -/

namespace Sys2Proof.Machine

/-- One bit as a 16-bit value: `zext_16` of a bit (00_scope.md R11). -/
def bitWord (b : Bool) : Word := if b then 1 else 0

/-- The code of `EDGE_STATE`: 0 = `AwaitingRise`, 1 = `AwaitingFall` (10_state.md R29). -/
def edgeStateBit : EdgeState → Bool
  | .awaitingRise => false
  | .awaitingFall => true

/-- The edge machine's next state: it depends only on the polarity handled (R29, R99). -/
def edgeStateAfter (rising : Bool) : EdgeState := if rising then .awaitingFall else .awaitingRise

/-- The handled edge is not the one awaited: a rise in `AwaitingFall` or a fall in `AwaitingRise` (R30, R99). -/
def unawaited (rising : Bool) (e : EdgeState) : Bool := rising == edgeStateBit e

/-- `SEQ_ERR` after an edge of the given polarity is handled: sticky (R91, R92). -/
def seqErrAfter (rising : Bool) (s : State) : Bool := s.seqErr || unawaited rising s.edgeState

/-- `STATUS` (R32): `EDGE_FLAG + 2*POL + 4*EDGE_STATE + 8*SEQ_ERR + 16*ECHO_SYNC`, bits 15:5 zero. -/
def statusWord (s : State) : Word :=
  bitWord s.edgeFlag + 2 * bitWord s.pol + 4 * bitWord (edgeStateBit s.edgeState) + 8 * bitWord s.seqErr
    + 16 * bitWord s.echoSync

/-- `TRIGR` (R33): bit 0 is `TRIG`, bits 15:1 zero. -/
def trigrWord (s : State) : Word := bitWord s.trig

/-- The pin `trig_out` shows `TRIG` at all times (42_bus_and_trigger.md R112). -/
def trigOut (s : State) : Bool := s.trig

end Sys2Proof.Machine
end

