-- ==== Sys2Proof/Machine/Operands.lean ====
section
/-! DEFINITION. The operand words as their agents' inputs form them (30_encoding.md R60 to R66) and the arithmetic of the pipeline (41_distance_pipeline.md R94 to R96). -/

namespace Sys2Proof.Machine

/-- The format T word of a tick strobe (R61). -/
def tickWord : FmtWord := ⟨.T, 1⟩

/-- The format R word of a reset request (R65). -/
def resetWord : FmtWord := ⟨.R, 1⟩

/-- The format P word, `prev` and `lvl` with `prev` the more significant (R62). -/
def edgeWord (prev lvl : Bool) : FmtWord := ⟨.P, 2 * prev.toNat + lvl.toNat⟩

/-- The format H word, the handoff word: `flag`, `pol`, `capt` (R63, 10_state.md R26). -/
def handoffWord (flag pol : Bool) (capt : Word) : FmtWord :=
  ⟨.H, 0x20000 * flag.toNat + 0x10000 * pol.toNat + capt.toNat⟩

/-- The format B word: `we`, `addr`, `wdata` (R64). -/
def busWord (we : Bool) (a : Addr) (v : Word) : FmtWord :=
  ⟨.B, 0x80000 * we.toNat + 0x10000 * a.toNat + v.toNat⟩

/-- `sub16(a, b) = (a − b) mod 65536` (00_scope.md R11, 41_distance_pipeline.md R94). -/
def sub16 (a b : Word) : Word := BitVec.ofNat 16 (a.toNat + Config.modulus - b.toNat)

/-- `udiv(a, 58)`: the floor of the quotient, remainder discarded (R95). -/
def udivDivisor (a : Word) : Word := BitVec.ofNat 16 (a.toNat / Config.divisor)

/-- `compute_distance(rise, fall) = udiv(sub16(fall, rise), 58)` (R96). -/
def computeDistance (rise fall : Word) : Word := udivDivisor (sub16 fall rise)

end Sys2Proof.Machine
end

