-- ==== Sys2Proof/Machine/Ops.lean ====
section
/-! DEFINITION. The shared operations: the register space (20_memory.md R42, R43), the capture event and its return (40_counter_and_capture.md R86, R87; 60_exceptions.md R124,
R127, R128). -/

namespace Sys2Proof.Machine

/-- `MemRead(addr, 1)` (20_memory.md R42): total on the eight word addresses, changes nothing. -/
def memRead (a : Addr) (s : State) : Word :=
  match a.getLsbD 2, a.getLsbD 1, a.getLsbD 0 with
  | false, false, false => s.cnt
  | false, false, true  => s.capt
  | false, true,  false => statusWord s
  | false, true,  true  => s.dist
  | true,  false, false => trigrWord s
  | true,  false, true  => 0
  | true,  true,  false => 0
  | true,  true,  true  => 0

/-- `MemWrite(addr, 1, v)` (R43): address 4 sets `TRIG`, address 2 with `v[3]` clears `SEQ_ERR`, nothing else is writable. -/
def memWrite (a : Addr) (v : Word) (s : State) : State :=
  if a = addrTrigr then { s with trig := v.getLsbD 0 }
  else if a = addrStatus ∧ v.getLsbD 3 = true then { s with seqErr := false }
  else s

/-- A bus read: its result is the 16-bit read data (42_bus_and_trigger.md R100). -/
def busRead (a : Addr) (s : State) : State := { s with readData := some (memRead a s) }

/-- The capture event, the block's one interrupt-like event (40_counter_and_capture.md R86; 60_exceptions.md R124): latch the counter and the polarity
and set the pending flag. An edge that finds the flag set latches nothing (R87). -/
def captureEvent (rising : Bool) (s : State) : State :=
  if s.edgeFlag then s else { s with capt := s.cnt, pol := rising, edgeFlag := true }

/-- The detector's memory follows the line at every edge (10_state.md R22, R82, R83). -/
def followLine (level : Bool) (s : State) : State := { s with echoSync := level }

/-- The return from the event: nothing is restored, the flag is cleared so a new event can be captured (60_exceptions.md R128,
41_distance_pipeline.md R98). -/
def clearEdgeFlag (s : State) : State := { s with edgeFlag := false }

/-- The edge machine and the sequence-error flag advance on the polarity handled (41_distance_pipeline.md R99). -/
def advanceEdgeMachine (rising : Bool) (s : State) : State :=
  { s with seqErr := seqErrAfter rising s, edgeState := edgeStateAfter rising }

end Sys2Proof.Machine
end

