-- ==== Sys2Proof/Machine/BusRead.lean ====
section
/-! DEFINITION. The bus reads (42_bus_and_trigger.md R101 to R106): the result is `MemRead` of the address, no element of the block changes. -/

namespace Sys2Proof.Machine

/-- `RD_CNT` (R101). -/
def execRdCnt (s : State) : Result := .next (busRead addrCnt s)

/-- `RD_CAPT` (R102). -/
def execRdCapt (s : State) : Result := .next (busRead addrCapt s)

/-- `RD_STATUS` (R103). -/
def execRdStatus (s : State) : Result := .next (busRead addrStatus s)

/-- `RD_DIST` (R104). -/
def execRdDist (s : State) : Result := .next (busRead addrDist s)

/-- `RD_TRIG` (R105). -/
def execRdTrig (s : State) : Result := .next (busRead addrTrigr s)

/-- `RD_RSVD5` (R106): 0x0000. -/
def execRdRsvd5 (s : State) : Result := .next (busRead 5 s)

/-- `RD_RSVD6` (R106): 0x0000. -/
def execRdRsvd6 (s : State) : Result := .next (busRead 6 s)

/-- `RD_RSVD7` (R106): 0x0000. -/
def execRdRsvd7 (s : State) : Result := .next (busRead 7 s)

end Sys2Proof.Machine
end

