-- ==== Sys2Proof/Machine/BusWrite.lean ====
section
/-! DEFINITION. The bus writes (42_bus_and_trigger.md R107 to R111). -/

namespace Sys2Proof.Machine

/-- `WR_IGN0` (R111): a write of `CNT` is ignored. -/
def execWrIgn0 (s : State) : Result := .next s

/-- `WR_IGN1` (R111): a write of `CAPT` is ignored. -/
def execWrIgn1 (s : State) : Result := .next s

/-- `WR_STATUS_NOP` (R110): a write of `STATUS` with `wdata[3]` = 0 changes nothing. -/
def execWrStatusNop (s : State) : Result := .next s

/-- `CLR_SEQ_ERR` (R109): `SEQ_ERR <- 0`, nothing else. -/
def execClrSeqErr (s : State) : Result := .next { s with seqErr := false }

/-- `WR_IGN3` (R111): a write of `DIST` is ignored. -/
def execWrIgn3 (s : State) : Result := .next s

/-- `TRIG_DEASSERT` (R108): `TRIG <- 0`, nothing else. -/
def execTrigDeassert (s : State) : Result := .next { s with trig := false }

/-- `TRIG_ASSERT` (R107): `TRIG <- 1`, nothing else. -/
def execTrigAssert (s : State) : Result := .next { s with trig := true }

/-- `WR_IGN5` (R111): reserved. -/
def execWrIgn5 (s : State) : Result := .next s

/-- `WR_IGN6` (R111): reserved. -/
def execWrIgn6 (s : State) : Result := .next s

/-- `WR_IGN7` (R111): reserved. -/
def execWrIgn7 (s : State) : Result := .next s

end Sys2Proof.Machine
end

