-- ==== Sys2Proof/Machine/Counter.lean ====
section
/-! DEFINITION. The counter's operation (40_counter_and_capture.md R80). -/

namespace Sys2Proof.Machine

/-- `TICK` (R80): `CNT <- (CNT + 1) mod 65536`, nothing else. -/
def execTick (s : State) : Result := .next { s with cnt := s.cnt + 1 }

end Sys2Proof.Machine
end

