-- ==== Sys2Proof/Machine/Edge.lean ====
section
/-! DEFINITION. The edge detector's operations (40_counter_and_capture.md R82 to R85). -/

namespace Sys2Proof.Machine

/-- `NO_EDGE_LOW` (R84): no state change at all. -/
def execNoEdgeLow (s : State) : Result := .next s

/-- `EDGE_RISE` (R82): capture a rising edge if the latch is free, and follow the line. -/
def execEdgeRise (s : State) : Result := .next (followLine true (captureEvent true s))

/-- `EDGE_FALL` (R83): the mirror image. -/
def execEdgeFall (s : State) : Result := .next (followLine false (captureEvent false s))

/-- `NO_EDGE_HIGH` (R85): no state change at all. -/
def execNoEdgeHigh (s : State) : Result := .next s

end Sys2Proof.Machine
end

