-- ==== Sys2Proof/Machine/Pipeline.lean ====
section
/-! DEFINITION. The distance pipeline's operations (41_distance_pipeline.md R91 to R93), each one atomic step (R98). -/

namespace Sys2Proof.Machine

/-- `HANDLE_RISE` (R91): `RISE_TS <- CAPT`, the edge machine to `AwaitingFall`, the flag cleared; `DIST` is not changed. -/
def execHandleRise (capt : Word) (s : State) : Result :=
  .next (clearEdgeFlag { advanceEdgeMachine true s with riseTs := capt })

/-- `HANDLE_FALL` (R92): `DIST <- compute_distance(RISE_TS, CAPT)` whatever the edge state, the edge machine to `AwaitingRise`, the flag
cleared; `RISE_TS` is read and not changed. -/
def execHandleFall (capt : Word) (s : State) : Result :=
  .next (clearEdgeFlag { advanceEdgeMachine false s with dist := computeDistance s.riseTs capt })

/-- `H_IDLE` (R93): with no event pending the pipeline does nothing. Log 4. -/
def execHIdle (s : State) : Result := .next s

end Sys2Proof.Machine
end

