-- ==== Sys2Proof/Machine/Reset.lean ====
section
/-! DEFINITION. Reset (70_reset_and_hazards.md R140). -/

namespace Sys2Proof.Machine

/-- `RESET` (R140, 10_state.md R38): all ten elements; `CNT` takes `CNT_RESET`, the environment's choice where it made one and a
free value otherwise (log 1, log 15). The foreground agent is outside the block (log 6). -/
def execReset (s : State) : Result :=
  .next { s with
    cnt       := s.cntChoice.getD (Config.cntReset s.drawn)
    echoSync  := false
    capt      := 0
    pol       := false
    edgeFlag  := false
    riseTs    := 0
    dist      := 0
    edgeState := .awaitingRise
    seqErr    := false
    trig      := false
    cntChoice := none
    drawn     := s.drawn + 1 }

end Sys2Proof.Machine
end

