-- ==== Sys2Proof/Machine/Dispatch.lean ====
section
/-! DEFINITION. The dispatch: one arm per operation (30_encoding.md R67). -/

namespace Sys2Proof.Machine

def exec (i : Instr) (s : State) : Host.Outcome State Fault Refusal :=
  match i with
  | .tick => Sys2Proof.Machine.execTick s
  | .reset => Sys2Proof.Machine.execReset s
  | .noEdgeLow => Sys2Proof.Machine.execNoEdgeLow s
  | .edgeRise => Sys2Proof.Machine.execEdgeRise s
  | .edgeFall => Sys2Proof.Machine.execEdgeFall s
  | .noEdgeHigh => Sys2Proof.Machine.execNoEdgeHigh s
  | .handleRise capt => Sys2Proof.Machine.execHandleRise capt s
  | .handleFall capt => Sys2Proof.Machine.execHandleFall capt s
  | .hIdle => Sys2Proof.Machine.execHIdle s
  | .rdCnt => Sys2Proof.Machine.execRdCnt s
  | .rdCapt => Sys2Proof.Machine.execRdCapt s
  | .rdStatus => Sys2Proof.Machine.execRdStatus s
  | .rdDist => Sys2Proof.Machine.execRdDist s
  | .rdTrig => Sys2Proof.Machine.execRdTrig s
  | .rdRsvd5 => Sys2Proof.Machine.execRdRsvd5 s
  | .rdRsvd6 => Sys2Proof.Machine.execRdRsvd6 s
  | .rdRsvd7 => Sys2Proof.Machine.execRdRsvd7 s
  | .wrIgn0 => Sys2Proof.Machine.execWrIgn0 s
  | .wrIgn1 => Sys2Proof.Machine.execWrIgn1 s
  | .wrStatusNop => Sys2Proof.Machine.execWrStatusNop s
  | .clrSeqErr => Sys2Proof.Machine.execClrSeqErr s
  | .wrIgn3 => Sys2Proof.Machine.execWrIgn3 s
  | .trigDeassert => Sys2Proof.Machine.execTrigDeassert s
  | .trigAssert => Sys2Proof.Machine.execTrigAssert s
  | .wrIgn5 => Sys2Proof.Machine.execWrIgn5 s
  | .wrIgn6 => Sys2Proof.Machine.execWrIgn6 s
  | .wrIgn7 => Sys2Proof.Machine.execWrIgn7 s

end Sys2Proof.Machine
end

