-- ==== Sys2Proof/Machine/Perform.lean ====
section
/-! DEFINITION. One agent's turn: the word its inputs present (30_encoding.md R60), its decoding, the operation, and what the foreground agent does
about it (42_bus_and_trigger.md R113 to R116); and a run as a list of turns (00_scope.md R13). -/

namespace Sys2Proof.Machine

/-- The foreground agent's actions from here on: a finished iteration "repeats from 1, forever" (R113). -/
def Foreground.todo (f : Foreground) : List Action :=
  match f.rest with
  | []     => f.prog
  | a :: r => a :: r

/-- The bus operation the foreground agent performs in its turn, if any: none while a delay is running (R114), and none for an
action that is "not a step of the block" (R71). -/
def Foreground.request (f : Foreground) : Option FmtWord :=
  if f.waiting ≠ 0 then none
  else
    match f.todo with
    | .write a v :: _    => some (busWord true a v)
    | .read a _ :: _     => some (busWord false a 0)
    | .clearOrEmit :: _  => if f.st.getLsbD 3 then some (busWord true addrStatus 0x0008) else none
    | .delay _ :: _      => none
    | .emit :: _         => none
    | []                 => none

/-- What the foreground agent does with the read data `r` of the read it has just performed. -/
def Foreground.latch (f : Foreground) (dst : Slot) (r : Word) : Foreground :=
  match dst with
  | .d => { f with d := r }
  | .s => { f with st := r }

/-- The foreground agent after its turn; `r` is the data of the last bus read. A turn during a delay changes nothing (R114). -/
def Foreground.advance (f : Foreground) (r : Option Word) : Foreground :=
  if f.waiting ≠ 0 then f
  else
    match f.todo with
    | []                     => f
    | .write _ _ :: rest     => { f with rest := rest }
    | .read _ dst :: rest    => Foreground.latch { f with rest := rest } dst (r.getD 0)
    | .delay n :: rest       => { f with rest := rest, waiting := n }
    | .emit :: rest          => { f with rest := rest, emitted := f.d :: f.emitted }
    | .clearOrEmit :: rest   =>
      if f.st.getLsbD 3 then { f with rest := rest } else { f with rest := rest, emitted := f.d :: f.emitted }

/-- A `TICK` counts towards the running delay (R114). -/
def Foreground.onTick (f : Foreground) : Foreground := { f with waiting := f.waiting - 1 }

/-- The word an event presents to its agent (30_encoding.md R60); `none` where the foreground agent performs no bus operation in
its turn. -/
def present (e : Event) (s : State) : Option FmtWord :=
  match e with
  | .tick       => some tickWord
  | .reset _    => some resetWord
  | .sample l   => some (edgeWord s.echoSync l)
  | .handle     => some (handoffWord s.edgeFlag s.pol s.capt)
  | .bus we a v => some (busWord we a v)
  | .foreground => s.fg.request

/-- What the environment sets before the step: the value `CNT_RESET` takes in a `RESET c` (30_encoding.md R70; log 15). -/
def setInputs (e : Event) (s : State) : State :=
  match e with
  | .tick       => s
  | .reset c    => { s with cntChoice := c }
  | .sample _   => s
  | .handle     => s
  | .bus _ _ _  => s
  | .foreground => s

/-- What the foreground agent does about the step: it counts ticks, and after its own turn goes on to its next action. -/
def notice (e : Event) (s : State) : State :=
  match e with
  | .tick       => { s with fg := s.fg.onTick }
  | .reset _    => s
  | .sample _   => s
  | .handle     => s
  | .bus _ _ _  => s
  | .foreground => { s with fg := s.fg.advance s.readData }

/-- Go on from a next state; a stop stays a stop. -/
def andThen (r : Result) (f : State → Result) : Result :=
  match r with
  | .next s    => f s
  | .fault x   => .fault x
  | .refused x => .refused x

/-- Run the word presented: decode it and execute the operation it selects. -/
def runWord (w : FmtWord) (s : State) : Result :=
  match decode w with
  | .ok i    => exec i s
  | .error r => .refused (.noOperation r)

/-- One agent's turn (00_scope.md R12, R13). -/
def perform (e : Event) (s : State) : Result :=
  match present e s with
  | none   => .next (notice e s)
  | some w => andThen (runWord w (setInputs e s)) (fun t => .next (notice e t))

/-- A run: the turns of a list of events, in order (R13, R50). -/
def runEvents (es : List Event) (s : State) : Result :=
  match es with
  | []      => .next s
  | e :: es => andThen (perform e s) (runEvents es)

/-- The operation an event performs on the block in this state, if any. -/
def operationOf (e : Event) (s : State) : Option Instr :=
  match present e s with
  | none   => none
  | some w =>
    match decode w with
    | .ok i    => some i
    | .error _ => none

/-- The operations a run performs, oldest first, each with the event that performed it and the state it was performed in. -/
def history (es : List Event) (s : State) : List (Event × State × Instr) :=
  match es with
  | []      => []
  | e :: es =>
    (match operationOf e s with
      | none   => []
      | some i => [(e, s, i)]) ++
    (match perform e s with
      | .next t    => history es t
      | .fault _   => []
      | .refused _ => [])

/-- The operations a run performs, oldest first. -/
def operations (es : List Event) (s : State) : List Instr := (history es s).map (fun h => h.2.2)

/-- The event presented next: the head of the schedule, or a free value (log 3). -/
def dueEvent (s : State) : Event :=
  match s.schedule with
  | e :: _ => e
  | []     => Config.nextEvent s.drawn

/-- The state with that event taken off. -/
def takeEvent (s : State) : State :=
  match s.schedule with
  | _ :: es => { s with schedule := es }
  | []      => { s with drawn := s.drawn + 1 }

/-- Present a word to its agent, in front of everything scheduled. The words of formats P and H hold state (`ECHO_SYNC`; the handoff
word), so those elements take the word's bits (R62, R63). Log 7. -/
def presentWord (s : State) (f : Fmt) (w : Nat) : State :=
  match f with
  | .T => { s with schedule := .tick :: s.schedule }
  | .R => { s with schedule := .reset none :: s.schedule }
  | .P =>
    { s with
      echoSync := (BitVec.ofNat 2 w).getLsbD 1
      schedule := .sample ((BitVec.ofNat 2 w).getLsbD 0) :: s.schedule }
  | .H =>
    { s with
      edgeFlag := (BitVec.ofNat 18 w).getLsbD 17
      pol      := (BitVec.ofNat 18 w).getLsbD 16
      capt     := (BitVec.ofNat 18 w).extractLsb' 0 16
      schedule := .handle :: s.schedule }
  | .B =>
    { s with
      schedule :=
        .bus ((BitVec.ofNat 20 w).getLsbD 19) ((BitVec.ofNat 20 w).extractLsb' 16 3)
          ((BitVec.ofNat 20 w).extractLsb' 0 16) :: s.schedule }

end Sys2Proof.Machine
end

