-- ==== Sys2Proof/Machine/Step.lean ====
section
/-! DEFINITION. One step (00_scope.md R13): the agent whose turn it is takes it. -/

namespace Sys2Proof.Machine

/-- One step: take the event due and perform it. -/
def step (s : State) : Host.Outcome State Fault Refusal := perform (dueEvent s) (takeEvent s)

/-- `s` with the word `w` of `nbits` bits presented next to the agent of its format (log 7, log 8); a word that is no operation
presents nothing. -/
def State.withFetchWord (s : State) (nbits w : Nat) : State :=
  match fmtOfBits nbits with
  | none   => s
  | some f => if FmtWord.wf ⟨f, w⟩ then presentWord s f w else s

end Sys2Proof.Machine
end

