-- ==== Sys2Proof/Machine/Clock.lean ====
section
/-! DEFINITION. One clock edge of a clocked implementation (60_exceptions.md R126): the steps present on it, in the fixed order, each enabled or
not according to the state before the edge. Not a step of the machine but a run of it. Log 12. -/

namespace Sys2Proof.Machine

/-- An event if its condition holds. -/
def presentIf (c : Bool) (e : Event) : List Event := if c then [e] else []

/-- The steps on one edge, in R126's order: `RESET` alone, else the bus operation, the sample, the pipeline's commit if an event was
pending before the edge, the tick. -/
def clockEvents (p : Ports) (s : State) : List Event :=
  if p.rst then [.reset none]
  else
    presentIf p.busSel (.bus p.busWe p.busAddr p.busWdata) ++ presentIf p.sampled (.sample p.echoIn)
      ++ presentIf (p.commit && s.edgeFlag) .handle ++ presentIf p.tick .tick

/-- The state after one clock edge. -/
def clockEdge (p : Ports) (s : State) : Result := runEvents (clockEvents p s) s

end Sys2Proof.Machine
end

