-- ==== Sys2Proof/Safety.lean ====
section
/-! DEFINITION. What counts as a safe run, in the terms the statements use: the invariant of every reachable state (10_state.md R39), the conditions
the environment must keep (70_reset_and_hazards.md R144, R145), the trace conditions of the history rules, and fairness (00_scope.md R14). -/

namespace Sys2Proof.Machine

/-- The largest distance the pipeline can produce, floor(65535 / 58) (00_scope.md R6, 41_distance_pipeline.md R95). -/
def maxDist : Nat := 1129

/-- The foreground agent runs one of the two programs the spec gives it and stands somewhere in it (42_bus_and_trigger.md R113, R116). -/
def Foreground.Running (f : Foreground) : Prop :=
  (f.prog = runCycle ∨ f.prog = runCycleChk) ∧ f.rest <:+ f.prog

/-- The invariant: `DIST` is at most 1129 (10_state.md R39 (a)), the foreground agent runs one of its programs, and what it has read
and emitted as a distance is at most 1129 (42_bus_and_trigger.md R115). -/
def State.Inv (s : State) : Prop :=
  s.dist.toNat ≤ maxDist ∧ s.fg.Running ∧ s.fg.d.toNat ≤ maxDist ∧ ∀ v ∈ s.fg.emitted, v.toNat ≤ maxDist

/-- The ten elements hold what a `RESET` leaves, `CNT` aside (10_state.md R38). -/
def State.JustReset (s : State) : Prop :=
  s.echoSync = false ∧ s.capt = 0 ∧ s.pol = false ∧ s.edgeFlag = false ∧ s.riseTs = 0 ∧ s.dist = 0 ∧
    s.edgeState = .awaitingRise ∧ s.seqErr = false ∧ s.trig = false

/-- The ten elements of 10_state.md R20 have the same values. -/
def State.SameElements (s t : State) : Prop :=
  s.cnt = t.cnt ∧ s.echoSync = t.echoSync ∧ s.capt = t.capt ∧ s.pol = t.pol ∧ s.edgeFlag = t.edgeFlag ∧
    s.riseTs = t.riseTs ∧ s.dist = t.dist ∧ s.edgeState = t.edgeState ∧ s.seqErr = t.seqErr ∧ s.trig = t.trig

/-- The event is an edge sampled while an event is pending: it is lost (40_counter_and_capture.md R87). -/
def losesEdge (e : Event) (s : State) : Bool :=
  match e with
  | .sample l   => s.edgeFlag && (l != s.echoSync)
  | .tick       => false
  | .reset _    => false
  | .handle     => false
  | .bus _ _ _  => false
  | .foreground => false

/-- The run loses no edge: every captured edge is handled before the next edge is sampled (70_reset_and_hazards.md R145). -/
def noEdgeLost (es : List Event) (s : State) : Bool :=
  match es with
  | []      => true
  | e :: es =>
    !losesEdge e s &&
      match perform e s with
      | .next t    => noEdgeLost es t
      | .fault _   => true
      | .refused _ => true

/-- How many `TICK` steps a run has: the only measure of elapsed time (00_scope.md R13). -/
def ticksIn (es : List Event) : Nat := es.countP (fun e => decide (e = .tick))

/-- An event during which the echo line stays at level `l` and neither the pipeline nor reset acts: ticks, bus operations, the foreground
agent's turns, samples at `l`. -/
def quietAt (l : Bool) (e : Event) : Bool :=
  match e with
  | .tick       => true
  | .reset _    => false
  | .sample m   => m == l
  | .handle     => false
  | .bus _ _ _  => true
  | .foreground => true

/-- The same where the pipeline's turn may come too as long as nothing is `pending`: it then finds nothing to handle
(41_distance_pipeline.md R93). -/
def calmAt (pending l : Bool) (e : Event) : Bool := quietAt l e || (!pending && e == .handle)

/-- The event is a write of `TRIGR` by another bus master than the foreground agent (60_exceptions.md R135). -/
def writesTrigr (e : Event) : Bool :=
  match e with
  | .tick       => false
  | .reset _    => false
  | .sample _   => false
  | .handle     => false
  | .bus we a _ => we && a == addrTrigr
  | .foreground => false

/-- Every turn of the foreground agent in the list comes while a delay that owes `owed` ticks at its start is still running; with
`owed` = 0 there is none (42_bus_and_trigger.md R114). -/
def turnsHeld (owed : Nat) (es : List Event) : Bool :=
  match es with
  | []      => true
  | e :: es => (!(e == .foreground) || owed != 0) && turnsHeld (if e = .tick then owed - 1 else owed) es

/-- One iteration of `RUN_CYCLE` as a schedule (42_bus_and_trigger.md R113): the foreground agent's six turns that act (assert, delay, de-assert, delay,
read, emit), and the events between them. Its turns that come during a delay stand in `hold` and `wait`. -/
def cycleSchedule (a hold b wait c : List Event) : List Event :=
  .foreground :: a ++ .foreground :: hold ++ .foreground :: b ++ .foreground :: wait ++ .foreground :: c ++ [.foreground]

/-- The lists cut a schedule at those six turns: 10 ticks and 500000 ticks at least occur before the agent goes on, and it acts nowhere
else. Every schedule of one iteration is of this form. -/
def OneCycle (a hold b wait c : List Event) : Prop :=
  turnsHeld 0 a = true ∧ turnsHeld Config.pulseHoldTicks hold = true ∧ turnsHeld 0 b = true ∧
    turnsHeld Config.cycleWaitTicks wait = true ∧ turnsHeld 0 c = true ∧
    Config.pulseHoldTicks ≤ ticksIn hold ∧ Config.cycleWaitTicks ≤ ticksIn wait

/-- An echo in the wait: the rise is sampled, handled at any time before the fall is sampled, and the fall is handled. -/
def echoIn (gap rise high fall tail : List Event) : List Event :=
  gap ++ .sample true :: rise ++ .handle :: high ++ .sample false :: fall ++ .handle :: tail

/-- The trigger pin over the iteration, where no other bus master writes it: high at every moment from the assert to the de-assert, and low at
every moment from then on (42_bus_and_trigger.md R112, R113). -/
def PinFollowsTheCycle (s : State) (a hold b wait c : List Event) : Prop :=
  ((∀ e ∈ a ++ hold, writesTrigr e = false) →
    ∀ p, p <+: a ++ .foreground :: hold → ∃ m, runEvents (.foreground :: p) s = .next m ∧ trigOut m = true) ∧
  ((∀ e ∈ b ++ wait ++ c, writesTrigr e = false) →
    ∀ p, p <+: b ++ .foreground :: wait ++ .foreground :: c ++ [.foreground] →
      ∃ m, runEvents (.foreground :: a ++ .foreground :: hold ++ .foreground :: p) s = .next m ∧ trigOut m = false)

/-- The polarity an operation of the pipeline handles, `none` for every other operation. -/
def handledPolarity (i : Instr) : Option Bool :=
  match i with
  | .handleRise _ => some true
  | .handleFall _ => some false
  | _             => none

/-- The step handled an edge that the edge machine was not awaiting (10_state.md R30). -/
def handledUnawaited (h : Event × State × Instr) : Bool :=
  match handledPolarity h.2.2 with
  | none   => false
  | some r => unawaited r h.2.1.edgeState

/-- The level of `trig_out` after one operation (42_bus_and_trigger.md R107, R108, R140). -/
def trigStep (b : Bool) (i : Instr) : Bool :=
  match i with
  | .trigAssert   => true
  | .trigDeassert => false
  | .reset        => false
  | _             => b

/-- `trig_out` as the operations of a run set it, from the level `b`. -/
def trigAfter (ops : List Instr) (b : Bool) : Bool := ops.foldl trigStep b

/-- The code of `EDGE_STATE` after one operation (41_distance_pipeline.md R99). -/
def edgeStateStep (e : EdgeState) (i : Instr) : EdgeState :=
  match handledPolarity i with
  | some r => edgeStateAfter r
  | none   => if i = .reset then .awaitingRise else e

/-- `EDGE_STATE` as the operations of a run set it, from `e` (10_state.md R39 (b)). -/
def edgeStateOf (ops : List Instr) (e : EdgeState) : EdgeState := ops.foldl edgeStateStep e

/-- `SEQ_ERR` after one operation: cleared by `CLR_SEQ_ERR` and `RESET`, set by an unawaited edge (10_state.md R30). -/
def seqErrStep (b : Bool) (h : Event × State × Instr) : Bool :=
  match h.2.2 with
  | .reset     => false
  | .clrSeqErr => false
  | _          => b || handledUnawaited h

/-- `SEQ_ERR` as the operations of a run set and clear it, from `b` (10_state.md R39 (e)). -/
def seqErrOf (hs : List (Event × State × Instr)) (b : Bool) : Bool := hs.foldl seqErrStep b

/-- The polarities of the edges a run detects, captured or not, oldest first (40_counter_and_capture.md R81). -/
def edgesDetected (ops : List Instr) : List Bool :=
  ops.filterMap (fun i =>
    match i with
    | .edgeRise => some true
    | .edgeFall => some false
    | _         => none)

/-- The operation writes `DIST` (10_state.md R20). -/
def writesDist (i : Instr) : Bool :=
  i == .reset || handledPolarity i == some false

/-- The bus operations the foreground agent itself performs in a run, oldest first. -/
def foregroundOperations (es : List Event) (s : State) : List Instr :=
  (history es s).filterMap (fun h => if h.1 = .foreground then some h.2.2 else none)

/-- An infinite execution: a sequence of events and of states, each the state before one event (00_scope.md R13, R16). -/
def IsExecution (ev : Nat → Event) (st : Nat → State) : Prop :=
  ∀ n, perform (ev n) (st n) = .next (st (n + 1))

/-- `TICK` is weakly fair (R14 (a)): it occurs infinitely often. -/
def TickFair (ev : Nat → Event) : Prop := ∀ n, ∃ m, n ≤ m ∧ ev m = .tick

/-- `HANDLE` is weakly fair (R14 (b)): if the edge flag stays 1, `HANDLE` eventually occurs. -/
def HandleFair (ev : Nat → Event) (st : Nat → State) : Prop :=
  ∀ n, (∀ m, n ≤ m → (st m).edgeFlag = true) → ∃ m, n ≤ m ∧ ev m = .handle

/-- The foreground agent takes its turn infinitely often. Nothing in the spec says so (R14 (d)); a claim that needs it has it as a premise. -/
def ForegroundFair (ev : Nat → Event) : Prop := ∀ n, ∃ m, n ≤ m ∧ ev m = .foreground

end Sys2Proof.Machine
end

