-- ==== Sys2Proof/Certificates/Slice0/Obligations.lean ====
section
/-! DEFINITION. The statements about the model. Rule numbers are those of spec/; each is listed in OBLIGATIONS.json with its basis. -/

open Sys2Proof Sys2Proof.Machine

/-! ### Reset and the invariant -/

/-- 70_reset_and_hazards.md R140, 10_state.md R38: a `RESET`, in any state, leaves every element at its stated value; `CNT` takes the value the
environment chooses (log 15), and no value is claimed where it chooses none (log 1). -/
def Obligations.ResetLeavesTheStatedState : Prop :=
  decode ⟨.R, 1⟩ = .ok .reset ∧
  (∀ s : State, ∃ t, exec .reset s = .next t ∧ t.JustReset ∧ ∀ c, s.cntChoice = some c → t.cnt = c) ∧
  (∀ (s : State) (c : Option Word), ∃ t, perform (.reset c) s = .next t ∧ t.JustReset ∧ (∀ v, c = some v → t.cnt = v) ∧
    memRead addrCapt t = 0 ∧ memRead addrStatus t = 0x0000 ∧ memRead addrDist t = 0 ∧ memRead addrTrigr t = 0x0000 ∧
    trigOut t = false)

/-- 10_state.md R38: the machine right after reset holds the stated values, whatever value `CNT_RESET` has. -/
def Obligations.ResetStateHoldsTheStatedValues : Prop :=
  (∀ c, (State.afterReset c).JustReset ∧ (State.afterReset c).cnt = c ∧
    memRead addrStatus (State.afterReset c) = 0x0000 ∧ memRead addrTrigr (State.afterReset c) = 0x0000) ∧
  ∃ c, State.reset = State.afterReset c

/-- The invariant of 10_state.md R39 (a) and 42_bus_and_trigger.md R115 holds at reset. The foreground agent's starting program is the model's choice (log 6). -/
def Obligations.InvariantHoldsAtReset : Prop := State.reset.Inv

/-- 10_state.md R39 (a), 42_bus_and_trigger.md R115: every step, whichever agent takes it, keeps the invariant. -/
def Obligations.EveryStepKeepsTheInvariant : Prop :=
  ∀ s t : State, s.Inv → step s = .next t → t.Inv

/-! ### The counter -/

/-- 40_counter_and_capture.md R80: `TICK` adds one modulo 65536 and changes nothing else; `n` of them add `n` modulo 65536 and 65536 of them change no
element; nothing but `TICK` and `RESET` changes the counter. -/
def Obligations.TickCountsModulo65536 : Prop :=
  decode ⟨.T, 1⟩ = .ok .tick ∧
  (∀ s : State, exec .tick s = .next { s with cnt := BitVec.ofNat 16 ((s.cnt.toNat + 1) % 65536) }) ∧
  (∀ s : State, s.cnt = 65535 → exec .tick s = .next { s with cnt := 0 }) ∧
  (∀ (n : Nat) (s : State), ∃ t, runEvents (tickN n) s = .next t ∧
    t.SameElements { s with cnt := BitVec.ofNat 16 ((s.cnt.toNat + n) % 65536) }) ∧
  (∀ (n : Nat) (s : State), n = 65536 → ∃ t, runEvents (tickN n) s = .next t ∧ t.SameElements s) ∧
  (∀ (i : Instr) (s t : State), exec i s = .next t → t.cnt ≠ s.cnt → i = .tick ∨ i = .reset)

/-! ### The edge detector and the capture latch -/

/-- 40_counter_and_capture.md R81, 30_encoding.md R62: a sample is always a step; the last level and the new one select the operation; the detector remembers the
new level; the edges detected alternate as long as no `RESET` intervenes. -/
def Obligations.SampleSelectsTheEdgeOperation : Prop :=
  (decode ⟨.P, 0b00⟩ = .ok .noEdgeLow ∧ decode ⟨.P, 0b01⟩ = .ok .edgeRise ∧ decode ⟨.P, 0b10⟩ = .ok .edgeFall ∧
    decode ⟨.P, 0b11⟩ = .ok .noEdgeHigh) ∧
  (∀ (s : State) (l : Bool),
    perform (.sample l) s =
      exec (if s.echoSync = l then (if l then .noEdgeHigh else .noEdgeLow) else (if l then .edgeRise else .edgeFall)) s ∧
    ∃ t, perform (.sample l) s = .next t ∧ t.echoSync = l) ∧
  (∀ (es : List Event) (s : State), .reset ∉ operations es s →
    List.IsChain (fun a b => a ≠ b) (edgesDetected (operations es s)))

/-- 40_counter_and_capture.md R82: `EDGE_RISE` captures the counter as it was before the step if the latch is free, and otherwise only follows the line. -/
def Obligations.EdgeRiseCapturesOrIsLost : Prop :=
  decode ⟨.P, 0b01⟩ = .ok .edgeRise ∧
  ∀ s : State,
    (s.echoSync = false → perform (.sample true) s = exec .edgeRise s) ∧
    (s.edgeFlag = false →
      exec .edgeRise s = .next { s with capt := s.cnt, pol := true, edgeFlag := true, echoSync := true }) ∧
    (s.edgeFlag = true → exec .edgeRise s = .next { s with echoSync := true })

/-- 40_counter_and_capture.md R83: `EDGE_FALL`, the mirror image. -/
def Obligations.EdgeFallCapturesOrIsLost : Prop :=
  decode ⟨.P, 0b10⟩ = .ok .edgeFall ∧
  ∀ s : State,
    (s.echoSync = true → perform (.sample false) s = exec .edgeFall s) ∧
    (s.edgeFlag = false →
      exec .edgeFall s = .next { s with capt := s.cnt, pol := false, edgeFlag := true, echoSync := false }) ∧
    (s.edgeFlag = true → exec .edgeFall s = .next { s with echoSync := false })

/-- 40_counter_and_capture.md R84, R85: a sample that finds the line where it was changes nothing at all. -/
def Obligations.SamplesWithoutAnEdgeChangeNothing : Prop :=
  decode ⟨.P, 0b00⟩ = .ok .noEdgeLow ∧ decode ⟨.P, 0b11⟩ = .ok .noEdgeHigh ∧
  ∀ s : State,
    exec .noEdgeLow s = .next s ∧ exec .noEdgeHigh s = .next s ∧
    (s.echoSync = false → perform (.sample false) s = .next s) ∧
    (s.echoSync = true → perform (.sample true) s = .next s)

/-- 10_state.md R39 (c), 20_memory.md R53, 40_counter_and_capture.md R87, 41_distance_pipeline.md R90: while an event is pending, no turn but the pipeline's and `RESET` changes the
handoff word, over any run, so the pipeline then handles the edge that was captured. -/
def Obligations.PendingEventIsHeld : Prop :=
  ∀ (es : List Event) (s : State), s.edgeFlag = true → (∀ e ∈ es, e ≠ .handle ∧ ∀ c, e ≠ .reset c) →
    ∃ t, runEvents es s = .next t ∧ t.edgeFlag = true ∧ t.pol = s.pol ∧ t.capt = s.capt ∧
      perform .handle t = exec (if s.pol then .handleRise s.capt else .handleFall s.capt) t

/-- 40_counter_and_capture.md R86, 10_state.md R39 (d): only a sample at a new level sets the flag, and it records the counter and the polarity, which then
equals the new level. -/
def Obligations.CaptureRecordsCounterAndPolarity : Prop :=
  ∀ (e : Event) (s : State), s.edgeFlag = false →
    ∃ t, perform e s = .next t ∧
      (t.edgeFlag = true ↔ ∃ l, e = .sample l ∧ l ≠ s.echoSync) ∧
      (t.edgeFlag = true → t.capt = s.cnt ∧ t.pol = t.echoSync ∧ t.pol = !s.echoSync)

/-! ### The pipeline -/

/-- 41_distance_pipeline.md R90, R93: the pipeline handles the captured edge if and only if one is pending, with the captured polarity and counter value; with
none pending, whatever the stale polarity and counter value, it changes nothing. That a turn with none pending is a step at all, one without
effect, is the model's choice: R93 says that it "is not a step" (log 4). -/
def Obligations.HandleRunsExactlyWhilePending : Prop :=
  (∀ (p : Bool) (c : Word), decode ⟨.H, 0x10000 * p.toNat + c.toNat⟩ = .ok .hIdle) ∧
  ∀ s : State,
    (s.edgeFlag = true → s.pol = true → perform .handle s = exec (.handleRise s.capt) s) ∧
    (s.edgeFlag = true → s.pol = false → perform .handle s = exec (.handleFall s.capt) s) ∧
    (s.edgeFlag = false → perform .handle s = exec .hIdle s) ∧
    exec .hIdle s = .next s ∧
    ∃ t, perform .handle s = .next t ∧ t.edgeFlag = false

/-- 41_distance_pipeline.md R91: `HANDLE_RISE`. -/
def Obligations.HandleRiseStoresTheTimestamp : Prop :=
  (∀ c : Word, decode ⟨.H, 0x30000 + c.toNat⟩ = .ok (.handleRise c)) ∧
  (∀ s : State, s.edgeFlag = true → s.pol = true → perform .handle s = exec (.handleRise s.capt) s) ∧
  ∀ (c : Word) (s : State),
    exec (.handleRise c) s =
      .next { s with
        seqErr := s.seqErr || (s.edgeState == .awaitingFall)
        riseTs := c
        edgeState := .awaitingFall
        edgeFlag := false }

/-- 41_distance_pipeline.md R92: `HANDLE_FALL`, whatever the edge state it finds. -/
def Obligations.HandleFallComputesTheDistance : Prop :=
  (∀ c : Word, decode ⟨.H, 0x20000 + c.toNat⟩ = .ok (.handleFall c)) ∧
  (∀ s : State, s.edgeFlag = true → s.pol = false → perform .handle s = exec (.handleFall s.capt) s) ∧
  ∀ (c : Word) (s : State),
    exec (.handleFall c) s =
      .next { s with
        seqErr := s.seqErr || (s.edgeState == .awaitingRise)
        dist := BitVec.ofNat 16 (((c.toNat + 65536 - s.riseTs.toNat) % 65536) / 58)
        edgeState := .awaitingRise
        edgeFlag := false }

/-- 41_distance_pipeline.md R99: the edge machine's transition table, row by row, and `RESET`. -/
def Obligations.EdgeMachineFollowsItsTable : Prop :=
  (∀ (c : Word) (s : State), s.edgeState = .awaitingRise →
    ∃ t, exec (.handleRise c) s = .next t ∧ t.edgeState = .awaitingFall ∧ t.seqErr = s.seqErr ∧ t.riseTs = c ∧ t.dist = s.dist) ∧
  (∀ (c : Word) (s : State), s.edgeState = .awaitingFall →
    ∃ t, exec (.handleFall c) s = .next t ∧ t.edgeState = .awaitingRise ∧ t.seqErr = s.seqErr ∧
      t.dist = computeDistance s.riseTs c ∧ t.riseTs = s.riseTs) ∧
  (∀ (c : Word) (s : State), s.edgeState = .awaitingFall →
    ∃ t, exec (.handleRise c) s = .next t ∧ t.edgeState = .awaitingFall ∧ t.seqErr = true ∧ t.riseTs = c ∧ t.dist = s.dist) ∧
  (∀ (c : Word) (s : State), s.edgeState = .awaitingRise →
    ∃ t, exec (.handleFall c) s = .next t ∧ t.edgeState = .awaitingRise ∧ t.seqErr = true ∧
      t.dist = computeDistance s.riseTs c ∧ t.riseTs = s.riseTs) ∧
  (∀ s : State, ∃ t, exec .reset s = .next t ∧ t.edgeState = .awaitingRise) ∧
  (∀ (i : Instr) (s t : State), exec i s = .next t → handledPolarity i = none → i ≠ .reset → t.edgeState = s.edgeState)

/-- 41_distance_pipeline.md R94: the subtraction, its two descriptions and its uniqueness. -/
def Obligations.SubtractionIsModulo65536 : Prop :=
  (∀ a b : Word, (b.toNat ≤ a.toNat → (sub16 a b).toNat = a.toNat - b.toNat) ∧
    (a.toNat < b.toNat → (sub16 a b).toNat + b.toNat = a.toNat + 65536)) ∧
  (∀ a b r : Word, ((r.toNat : Int) - ((a.toNat : Int) - (b.toNat : Int))) % 65536 = 0 ↔ r = sub16 a b) ∧
  (sub16 680 100 = 580 ∧ sub16 44 65500 = 80 ∧ sub16 0 65535 = 1 ∧ sub16 0 1 = 65535 ∧ ∀ x : Word, sub16 x x = 0)

/-- 41_distance_pipeline.md R95: the division is the floor, for all 65536 inputs, and at most 1129. -/
def Obligations.DivisionIsTheFloor : Prop :=
  (∀ a : Word, 58 * (udivDivisor a).toNat ≤ a.toNat ∧ a.toNat ≤ 58 * (udivDivisor a).toNat + 57 ∧
    (udivDivisor a).toNat ≤ 1129) ∧
  (∀ (a : Word) (q : Nat), 58 * q ≤ a.toNat → a.toNat ≤ 58 * q + 57 → (udivDivisor a).toNat = q) ∧
  (udivDivisor 65535 = 1129 ∧ udivDivisor 57 = 0 ∧ udivDivisor 58 = 1)

/-- 41_distance_pipeline.md R96: the composite function is monotone in the elapsed interval and depends on the difference alone, and it is what `HANDLE_FALL` writes. -/
def Obligations.DistanceIsMonotoneAndShiftInvariant : Prop :=
  (∀ r1 f1 r2 f2 : Word, (sub16 f1 r1).toNat ≤ (sub16 f2 r2).toNat →
    (computeDistance r1 f1).toNat ≤ (computeDistance r2 f2).toNat) ∧
  (∀ r f k : Word, computeDistance (r + k) (f + k) = computeDistance r f) ∧
  (∀ r f : Word, computeDistance r f = udivDivisor (sub16 f r)) ∧
  (∀ (c : Word) (s : State), ∃ t, exec (.handleFall c) s = .next t ∧ t.dist = computeDistance s.riseTs c)

/-! ### Whole measurements -/

/-- 41_distance_pipeline.md R97, 40_counter_and_capture.md R88, 70_reset_and_hazards.md R144: a rise captured, handled, a fall captured, handled, with any turns of the other agents in between: the two
captured values differ by the number of ticks between the two samples, modulo 65536, and `DIST` is that divided by 58. From `AwaitingRise` no
sequence error is recorded, also not for a pulse of a wrap or more. -/
def Obligations.PulseIsMeasuredInTicks : Prop :=
  ∀ (s : State) (q1 q2 q3 : List Event), s.edgeFlag = false → s.echoSync = false →
    (∀ e ∈ q1, quietAt true e = true) → (∀ e ∈ q2, quietAt true e = true) → (∀ e ∈ q3, quietAt false e = true) →
    ∃ t, runEvents (.sample true :: q1 ++ .handle :: q2 ++ .sample false :: q3 ++ [.handle]) s = .next t ∧
      t.riseTs = s.cnt ∧
      (sub16 t.capt t.riseTs).toNat = (ticksIn q1 + ticksIn q2) % 65536 ∧
      t.dist.toNat = (ticksIn q1 + ticksIn q2) % 65536 / 58 ∧
      (ticksIn q1 + ticksIn q2 ≤ 65535 → t.dist.toNat = (ticksIn q1 + ticksIn q2) / 58) ∧
      t.edgeState = .awaitingRise ∧ t.edgeFlag = false ∧ t.echoSync = false ∧
      (s.edgeState = .awaitingRise → t.seqErr = true → s.seqErr = true)

/-- 70_reset_and_hazards.md R145, 40_counter_and_capture.md R87 (b): a fall and the next rise lost while the first rise is pending: the pipeline pairs the first rise with the second fall, the
distance spans both pulses, and no sequence error is recorded. -/
def Obligations.TwoLostEdgesGoUnreported : Prop :=
  ∀ (s : State) (q1 q2 q3 q4 q5 : List Event), s.edgeFlag = false → s.echoSync = false → s.edgeState = .awaitingRise →
    (∀ e ∈ q1, quietAt true e = true) → (∀ e ∈ q2, quietAt false e = true) → (∀ e ∈ q3, quietAt true e = true) →
    (∀ e ∈ q4, quietAt true e = true) → (∀ e ∈ q5, quietAt false e = true) →
    ∃ t, runEvents (.sample true :: q1 ++ .sample false :: q2 ++ .sample true :: q3 ++ .handle :: q4 ++
        .sample false :: q5 ++ [.handle]) s = .next t ∧
      t.dist.toNat = (ticksIn q1 + ticksIn q2 + ticksIn q3 + ticksIn q4) % 65536 / 58 ∧
      (t.seqErr = true → s.seqErr = true) ∧ t.edgeState = .awaitingRise

/-- 70_reset_and_hazards.md R145, 60_exceptions.md R121: one fall lost while its rise is pending: the next rise is handled in `AwaitingFall`, the newer timestamp wins, the distance is kept and
the error is recorded. -/
def Obligations.OneLostFallIsReported : Prop :=
  ∀ (s : State) (q1 q2 q3 q4 : List Event), s.edgeFlag = false → s.echoSync = false →
    (∀ e ∈ q1, quietAt true e = true) → (∀ e ∈ q2, quietAt false e = true) → (∀ e ∈ q3, quietAt false e = true) →
    (∀ e ∈ q4, quietAt true e = true) →
    ∃ t, runEvents (.sample true :: q1 ++ .sample false :: q2 ++ .handle :: q3 ++ .sample true :: q4 ++ [.handle]) s = .next t ∧
      t.seqErr = true ∧ t.dist = s.dist ∧ t.edgeState = .awaitingFall ∧
      t.riseTs.toNat = (s.cnt.toNat + ticksIn q1 + ticksIn q2 + ticksIn q3) % 65536

/-- 70_reset_and_hazards.md R145, 10_state.md R39 (e): in every run from a reset in which no edge is lost, every edge handled is the one awaited and `SEQ_ERR` stays 0. -/
def Obligations.NoLostEdgeNoSequenceError : Prop :=
  ∀ (es : List Event) (s : State), s.JustReset → noEdgeLost es s = true →
    ∃ t, runEvents es s = .next t ∧ t.seqErr = false ∧ ∀ h ∈ history es s, handledUnawaited h = false

/-- 70_reset_and_hazards.md R142 (c): in every run from a reset the first edge handled, if any, is a rise. -/
def Obligations.FirstHandledEdgeAfterResetIsARise : Prop :=
  ∀ (es : List Event) (s : State), s.JustReset →
    ((operations es s).filterMap handledPolarity).head? ≠ some false

/-- 70_reset_and_hazards.md R142 (b): an echo line already high at the first sample after a reset is captured as a rise, with the counter of that moment. -/
def Obligations.EchoHighAtResetIsCaptured : Prop :=
  ∀ (s : State) (q : List Event), s.JustReset → (∀ e ∈ q, quietAt false e = true) →
    ∃ t, runEvents (q ++ [.sample true]) s = .next t ∧ t.edgeFlag = true ∧ t.pol = true ∧
      t.capt.toNat = (s.cnt.toNat + ticksIn q) % 65536 ∧ t.edgeState = .awaitingRise

/-- 41_distance_pipeline.md R96, 00_scope.md R10: the value a reset leaves in the counter affects no distance, no status, no trigger level and no emitted reading of any run.
(Reads of `CNT` and `CAPT` do show it.) -/
def Obligations.CounterResetValueAffectsNoReading : Prop :=
  ∀ (es : List Event) (s : State) (c : Word), s.JustReset → s.fg.Running →
    ∃ t u, runEvents es s = .next t ∧ runEvents es { s with cnt := c } = .next u ∧
      t.dist = u.dist ∧ statusWord t = statusWord u ∧ trigOut t = trigOut u ∧ t.fg.emitted = u.fg.emitted

/-! ### The register port -/

/-- 42_bus_and_trigger.md R101 to R106: every read completes in every state, returns its word and changes no element of the block. The
word returned is found in `readData` (log 5). -/
def Obligations.ReadsReturnTheirWord : Prop :=
  (∀ v : Word,
    decode ⟨.B, 0x00000 + v.toNat⟩ = .ok .rdCnt ∧ decode ⟨.B, 0x10000 + v.toNat⟩ = .ok .rdCapt ∧
    decode ⟨.B, 0x20000 + v.toNat⟩ = .ok .rdStatus ∧ decode ⟨.B, 0x30000 + v.toNat⟩ = .ok .rdDist ∧
    decode ⟨.B, 0x40000 + v.toNat⟩ = .ok .rdTrig ∧ decode ⟨.B, 0x50000 + v.toNat⟩ = .ok .rdRsvd5 ∧
    decode ⟨.B, 0x60000 + v.toNat⟩ = .ok .rdRsvd6 ∧ decode ⟨.B, 0x70000 + v.toNat⟩ = .ok .rdRsvd7) ∧
  ∀ s : State,
    exec .rdCnt s = .next { s with readData := some s.cnt } ∧
    exec .rdCapt s = .next { s with readData := some s.capt } ∧
    (∃ w : Word, exec .rdStatus s = .next { s with readData := some w } ∧
      w.toNat = s.edgeFlag.toNat + 2 * s.pol.toNat + 4 * (edgeStateBit s.edgeState).toNat + 8 * s.seqErr.toNat
        + 16 * s.echoSync.toNat) ∧
    exec .rdDist s = .next { s with readData := some s.dist } ∧
    exec .rdTrig s = .next { s with readData := some (if s.trig then 1 else 0) } ∧
    exec .rdRsvd5 s = .next { s with readData := some 0x0000 } ∧
    exec .rdRsvd6 s = .next { s with readData := some 0x0000 } ∧
    exec .rdRsvd7 s = .next { s with readData := some 0x0000 }

/-- 42_bus_and_trigger.md R107 to R111: every write completes in every state; the trigger and the sequence-error flag are all that a write changes. -/
def Obligations.WritesHaveTheirStatedEffect : Prop :=
  (∀ v : Word,
    decode ⟨.B, 0x80000 + v.toNat⟩ = .ok .wrIgn0 ∧ decode ⟨.B, 0x90000 + v.toNat⟩ = .ok .wrIgn1 ∧
    decode ⟨.B, 0xA0000 + v.toNat⟩ = .ok (if v.getLsbD 3 then .clrSeqErr else .wrStatusNop) ∧
    decode ⟨.B, 0xB0000 + v.toNat⟩ = .ok .wrIgn3 ∧
    decode ⟨.B, 0xC0000 + v.toNat⟩ = .ok (if v.getLsbD 0 then .trigAssert else .trigDeassert) ∧
    decode ⟨.B, 0xD0000 + v.toNat⟩ = .ok .wrIgn5 ∧ decode ⟨.B, 0xE0000 + v.toNat⟩ = .ok .wrIgn6 ∧
    decode ⟨.B, 0xF0000 + v.toNat⟩ = .ok .wrIgn7) ∧
  ∀ s : State,
    exec .trigAssert s = .next { s with trig := true } ∧ trigOut { s with trig := true } = true ∧
    exec .trigDeassert s = .next { s with trig := false } ∧ trigOut { s with trig := false } = false ∧
    exec .clrSeqErr s = .next { s with seqErr := false } ∧
    exec .wrStatusNop s = .next s ∧
    exec .wrIgn0 s = .next s ∧ exec .wrIgn1 s = .next s ∧ exec .wrIgn3 s = .next s ∧
    exec .wrIgn5 s = .next s ∧ exec .wrIgn6 s = .next s ∧ exec .wrIgn7 s = .next s

/-- 42_bus_and_trigger.md R100: a bus operation with any of its 2^20 words is the read or the write of its address. -/
def Obligations.BusOperationIsAReadOrAWrite : Prop :=
  ∀ (a : Addr) (v : Word) (s : State),
    perform (.bus false a v) s = .next { s with readData := some (memRead a s) } ∧
    perform (.bus true a v) s = .next (memWrite a v s)

/-- 20_memory.md R42: the eight words of the register space. `RISE_TS` is in none of them (10_state.md R27). -/
def Obligations.RegisterSpaceReads : Prop :=
  (∀ s : State, memRead 0 s = s.cnt ∧ memRead 1 s = s.capt ∧
    (memRead 2 s).toNat = s.edgeFlag.toNat + 2 * s.pol.toNat + 4 * (edgeStateBit s.edgeState).toNat + 8 * s.seqErr.toNat
      + 16 * s.echoSync.toNat ∧
    memRead 3 s = s.dist ∧ (memRead 4 s).toNat = s.trig.toNat ∧ memRead 5 s = 0 ∧ memRead 6 s = 0 ∧ memRead 7 s = 0) ∧
  (∀ (a : Addr) (v : Word) (s : State), memRead a { s with riseTs := v } = memRead a s)

/-- 10_state.md R32, R33: the fields of `STATUS` and `TRIGR` bit by bit; reserved bits read as 0; what a write of either looks at. -/
def Obligations.StatusAndTrigrLayout : Prop :=
  (∀ s : State,
    (memRead addrStatus s).getLsbD 0 = s.edgeFlag ∧ (memRead addrStatus s).getLsbD 1 = s.pol ∧
    (memRead addrStatus s).getLsbD 2 = (s.edgeState == .awaitingFall) ∧ (memRead addrStatus s).getLsbD 3 = s.seqErr ∧
    (memRead addrStatus s).getLsbD 4 = s.echoSync ∧ (∀ i, 5 ≤ i → (memRead addrStatus s).getLsbD i = false) ∧
    (memRead addrTrigr s).getLsbD 0 = s.trig ∧ (∀ i, 1 ≤ i → (memRead addrTrigr s).getLsbD i = false)) ∧
  (∀ w : Word, w.toNat < 32 → ∃ s : State, memRead addrStatus s = w) ∧
  (∀ (s : State) (v : Word),
    (memRead addrStatus s).toNat = s.edgeFlag.toNat + 2 * s.pol.toNat + 4 * (edgeStateBit s.edgeState).toNat
      + 8 * s.seqErr.toNat + 16 * s.echoSync.toNat ∧
    perform (.bus false addrStatus v) s = .next { s with readData := some (memRead addrStatus s) } ∧
    perform (.bus true addrStatus v) s = .next { s with seqErr := s.seqErr && !v.getLsbD 3 } ∧
    perform (.bus true addrTrigr v) s = .next { s with trig := v.getLsbD 0 } ∧
    memWrite addrStatus v s = { s with seqErr := s.seqErr && !v.getLsbD 3 } ∧
    memWrite addrTrigr v s = { s with trig := v.getLsbD 0 })

/-- 20_memory.md R43: what a write of each address changes, and that every other word reads as before. -/
def Obligations.RegisterSpaceWrites : Prop :=
  (∀ (v : Word) (s : State),
    memWrite 4 v s = { s with trig := v.getLsbD 0 } ∧
    (v.getLsbD 3 = true → memWrite 2 v s = { s with seqErr := false }) ∧
    (v.getLsbD 3 = false → memWrite 2 v s = s)) ∧
  (∀ (a : Addr) (v : Word) (s : State), a ≠ 4 → a ≠ 2 → memWrite a v s = s) ∧
  (∀ (a b : Addr) (v : Word) (s : State), b ≠ a → memRead b (memWrite a v s) = memRead b s)

/-- 20_memory.md R48, R49: reserved words read 0 and ignore writes, and the write data bits a write does not look at have no effect, as the operation performed shows too. -/
def Obligations.IgnoredDataBitsHaveNoEffect : Prop :=
  (∀ (a : Addr) (v w : Word) (s : State), (a = addrTrigr → v.getLsbD 0 = w.getLsbD 0) →
    (a = addrStatus → v.getLsbD 3 = w.getLsbD 3) →
    operationOf (.bus true a v) s = operationOf (.bus true a w) s ∧
    perform (.bus true a v) s = perform (.bus true a w) s) ∧
  (∀ (a : Addr) (v w : Word) (s : State), perform (.bus false a v) s = perform (.bus false a w) s) ∧
  (∀ (a : Addr) (v : Word) (s : State), a = 5 ∨ a = 6 ∨ a = 7 →
    perform (.bus true a v) s = .next s ∧ perform (.bus false a v) s = .next { s with readData := some 0x0000 }) ∧
  (∀ s : State, (∀ i, 5 ≤ i → (memRead addrStatus s).getLsbD i = false) ∧
    (∀ i, 1 ≤ i → (memRead addrTrigr s).getLsbD i = false))

/-- 20_memory.md R47: a read has no side effect, so reading twice gives the same word twice; writing twice is writing once. -/
def Obligations.ReadsAndWritesAreIdempotent : Prop :=
  (∀ (a : Addr) (v : Word) (s : State), ∃ t, perform (.bus false a v) s = .next t ∧
    (∀ b, memRead b t = memRead b s) ∧ t = { s with readData := t.readData } ∧
    perform (.bus false a v) t = .next t) ∧
  (∀ (a : Addr) (v : Word) (s : State), ∃ t, perform (.bus true a v) s = .next t ∧ perform (.bus true a v) t = .next t)

/-- 42_bus_and_trigger.md R112: the pin shows `TRIG`, and over any run it is at the level of the last assert, de-assert or reset: nothing times it out. -/
def Obligations.TriggerPinFollowsTheLastTriggerOperation : Prop :=
  (∀ s : State, trigOut s = s.trig) ∧
  (∀ (es : List Event) (s : State), ∃ t, runEvents es s = .next t ∧
    trigOut t = trigAfter (operations es s) (trigOut s))

/-! ### Rules over all operations -/

/-- 10_state.md R20, R36: which operations may change which element. That none changes the foreground agent or the schedule is the model's own (log 3, log 6). -/
def Obligations.EachElementHasItsWriters : Prop :=
  ∀ (i : Instr) (s t : State), exec i s = .next t →
    (t.cnt ≠ s.cnt → i = .tick ∨ i = .reset) ∧
    (t.echoSync ≠ s.echoSync → i = .edgeRise ∨ i = .edgeFall ∨ i = .reset) ∧
    (t.capt ≠ s.capt ∨ t.pol ≠ s.pol → ((i = .edgeRise ∨ i = .edgeFall) ∧ s.edgeFlag = false) ∨ i = .reset) ∧
    (s.edgeFlag = false → t.edgeFlag = true → i = .edgeRise ∨ i = .edgeFall) ∧
    (s.edgeFlag = true → t.edgeFlag = false → handledPolarity i ≠ none ∨ i = .reset) ∧
    (t.riseTs ≠ s.riseTs → handledPolarity i = some true ∨ i = .reset) ∧
    (t.dist ≠ s.dist → handledPolarity i = some false ∨ i = .reset) ∧
    (t.edgeState ≠ s.edgeState → handledPolarity i ≠ none ∨ i = .reset) ∧
    (s.seqErr = false → t.seqErr = true → handledPolarity i ≠ none) ∧
    (s.seqErr = true → t.seqErr = false → i = .clrSeqErr ∨ i = .reset) ∧
    (t.trig ≠ s.trig → i = .trigAssert ∨ i = .trigDeassert ∨ i = .reset) ∧
    t.fg = s.fg ∧ t.schedule = s.schedule

/-- 10_state.md R39 (b): over any run the edge state is the polarity last handled, `AwaitingRise` after a reset. -/
def Obligations.EdgeStateIsTheLastHandledPolarity : Prop :=
  ∀ (es : List Event) (s : State), ∃ t, runEvents es s = .next t ∧
    t.edgeState = edgeStateOf (operations es s) s.edgeState

/-- 10_state.md R30, R39 (e): over any run the sequence-error flag is set by every unawaited edge handled and cleared by nothing but `CLR_SEQ_ERR` and `RESET`. -/
def Obligations.SequenceErrorRecordsEveryUnawaitedEdge : Prop :=
  ∀ (es : List Event) (s : State), ∃ t, runEvents es s = .next t ∧
    t.seqErr = seqErrOf (history es s) s.seqErr

/-- 10_state.md R28, R39 (f), 20_memory.md R50 (b): the distance is kept until a fall is handled or a reset occurs, so a later read still returns it. -/
def Obligations.DistanceIsKeptUntilAFallIsHandled : Prop :=
  ∀ (es : List Event) (s : State), (∀ i ∈ operations es s, writesDist i = false) →
    ∃ t, runEvents es s = .next t ∧ t.dist = s.dist ∧ exec .rdDist t = .next { t with readData := some s.dist }

/-- 60_exceptions.md R120: every operation of every format completes, every word selects one, and every step of the machine answers a next state. -/
def Obligations.EveryStepCompletes : Prop :=
  (∀ (i : Instr) (s : State), ∃ t, exec i s = .next t) ∧
  (∀ w : FmtWord, w.wf = true → ∃ i, decode w = .ok i) ∧
  (∀ s : State, ∃ t, step s = .next t)

/-! ### The step -/

/-- A step is the operation the due event's word decodes to, with what the model adds around it: the environment's choice of `CNT_RESET` before, the foreground
agent's notice after (log 3, log 6, log 15). Where the foreground agent performs no bus operation, only that notice happens. -/
def Obligations.StepRunsTheDecodedOperation : Prop :=
  (∀ (s : State) (w : FmtWord) (i : Instr), present (dueEvent s) (takeEvent s) = some w → decode w = .ok i →
    ∃ t, exec i (setInputs (dueEvent s) (takeEvent s)) = .next t ∧ step s = .next (notice (dueEvent s) t)) ∧
  (∀ s : State, present (dueEvent s) (takeEvent s) = none → step s = .next (notice (dueEvent s) (takeEvent s)))

/-- A run of the machine over a schedule is the run of its events, so that what is stated of runs is said of the machine (00_scope.md R13; log 3). -/
def Obligations.ScheduledRunIsTheEventRun : Prop :=
  ∀ (es : List Event) (s : State),
    Sys2Proof.core.run es.length { s with schedule := es } = runEvents es { s with schedule := [] }

/-- A word of the opcode table presented to the machine is the operation its next step performs (log 7, log 8). -/
def Obligations.PresentedTableWordIsRun : Prop :=
  ∀ (s : State) (nbits w : Nat) (i : Instr), decodeTableWord nbits w = some i →
    operationOf (dueEvent (s.withFetchWord nbits w)) (takeEvent (s.withFetchWord nbits w)) = some i

/-! ### Encoding -/

/-- 30_encoding.md R64, R67: decoding the canonical word of any operation, with any captured value, gives it back. -/
def Obligations.EncodedOperationsDecode : Prop := ∀ i : Instr, decode (encode i) = .ok i

/-- 30_encoding.md R64: encoding a decoded word gives the word with 0 in every bit its operation ignores, and no other bit changed. A number that
is no word of its format is rejected by name: that is the model's own, the spec has no such word (log 9). -/
def Obligations.DecodedWordsAreCanonicalUpToIgnoredBits : Prop :=
  (∀ (w : FmtWord) (i : Instr), decode w = .ok i → encode i = ⟨w.fmt, w.bits &&& usedBits i⟩) ∧
  (∀ w : FmtWord, w.fits = false → decode w = .error (.tooWide w.fmt))

/-- 30_encoding.md R67, R68: every word but T and R word 0 matches exactly one row of the opcode map, and the decoder gives that row's operation; those two are no step. -/
def Obligations.DecoderAgreesWithTheOpcodeMap : Prop :=
  (∀ w : FmtWord, w.wf = true → ∃ i, decode w = .ok i ∧ (opTable.filter (fun r => r.selects w)).map OpRow.mnemonic = [mnemonicOf i]) ∧
  (∀ w : FmtWord, w.fits = true → w.isStep = false → decode w = .error (.noStep w.fmt))

/-- Words written out from 30_encoding.md R61 to R67 decode to the operations they stand for (the H and B words are those of 95_test_vectors.md). -/
def Obligations.WrittenOutWordsDecode : Prop :=
  decode ⟨.T, 0b1⟩ = .ok .tick ∧ decode ⟨.R, 0b1⟩ = .ok .reset ∧ decode ⟨.P, 0b01⟩ = .ok .edgeRise ∧
  decode ⟨.H, 0x30064⟩ = .ok (.handleRise 100) ∧ decode ⟨.H, 0x202A8⟩ = .ok (.handleFall 680) ∧ decode ⟨.H, 0x10064⟩ = .ok .hIdle ∧
  decode ⟨.B, 0x3BEEF⟩ = .ok .rdDist ∧ decode ⟨.B, 0xAFFFF⟩ = .ok .clrSeqErr ∧ decode ⟨.B, 0xCFFFE⟩ = .ok .trigDeassert

/-! ### The clocked implementation -/

/-- 60_exceptions.md R126, 92_eei_decisions.md D18: without a reset, the fixed order of steps on one clock edge gives each element the value that registers which all read
old values give it. -/
def Obligations.ClockEdgeEqualsRegisterTransfer : Prop :=
  ∀ (p : Ports) (s : State), p.rst = false →
    ∃ t, clockEdge p s = .next t ∧
      t.cnt = (if p.tick then s.cnt + 1 else s.cnt) ∧
      t.echoSync = (if p.sampled then p.echoIn else s.echoSync) ∧
      t.capt = (if p.sampled && (p.echoIn != s.echoSync) && !s.edgeFlag then s.cnt else s.capt) ∧
      t.pol = (if p.sampled && (p.echoIn != s.echoSync) && !s.edgeFlag then p.echoIn else s.pol) ∧
      t.edgeFlag = (if s.edgeFlag then !p.commit else p.sampled && (p.echoIn != s.echoSync)) ∧
      t.riseTs = (if p.commit && s.edgeFlag && s.pol then s.capt else s.riseTs) ∧
      t.dist = (if p.commit && s.edgeFlag && !s.pol then computeDistance s.riseTs s.capt else s.dist) ∧
      t.edgeState = (if p.commit && s.edgeFlag then edgeStateAfter s.pol else s.edgeState) ∧
      t.seqErr = ((p.commit && s.edgeFlag && unawaited s.pol s.edgeState) ||
        (s.seqErr && !(p.busSel && p.busWe && (p.busAddr == addrStatus) && p.busWdata.getLsbD 3))) ∧
      t.trig = (if p.busSel && p.busWe && (p.busAddr == addrTrigr) then p.busWdata.getLsbD 0 else s.trig) ∧
      t.readData = (if p.busSel && !p.busWe then some (memRead p.busAddr s) else s.readData)

/-- 60_exceptions.md R126: the order itself, and its consequences (a) to (e). -/
def Obligations.ClockEdgeFollowsTheFixedOrder : Prop :=
  (∀ (p : Ports) (s : State), p.rst = true → clockEdge p s = perform (.reset none) s) ∧
  (∀ (p : Ports) (s : State), p.rst = false →
    clockEdge p s =
      runEvents ((if p.busSel then [.bus p.busWe p.busAddr p.busWdata] else []) ++ (if p.sampled then [.sample p.echoIn] else [])
        ++ (if p.commit && s.edgeFlag then [.handle] else []) ++ (if p.tick then [.tick] else [])) s) ∧
  (∀ (p : Ports) (s : State), p.rst = false → p.sampled = true → p.tick = true → s.edgeFlag = false → p.echoIn ≠ s.echoSync →
    ∃ t, clockEdge p s = .next t ∧ t.capt = s.cnt ∧ t.cnt = s.cnt + 1 ∧ t.edgeFlag = true) ∧
  (∀ (p : Ports) (s : State), p.rst = false → p.sampled = true → p.commit = true → s.edgeFlag = true →
    ∃ t, clockEdge p s = .next t ∧ t.capt = s.capt ∧ t.pol = s.pol ∧ t.edgeFlag = false ∧ t.echoSync = p.echoIn) ∧
  (∀ (p : Ports) (s : State), p.rst = false → p.busSel = true → p.busWe = true → p.busAddr = addrStatus →
    p.busWdata.getLsbD 3 = true → p.commit = true → s.edgeFlag = true → unawaited s.pol s.edgeState = true →
    ∃ t, clockEdge p s = .next t ∧ t.seqErr = true) ∧
  (∀ (p : Ports) (s : State), p.rst = false → p.busSel = true → p.busWe = false →
    ∃ t, clockEdge p s = .next t ∧ t.readData = some (memRead p.busAddr s))

/-! ### The foreground agent -/

/-- 30_encoding.md R71, 42_bus_and_trigger.md R113 to R116: what each action of the foreground agent does when its turn comes and no delay is running. That one action is one turn is the model's
choice (log 6). -/
def Obligations.ForegroundActionsDoWhatTheyName : Prop :=
  ∀ (s : State) (rest : List Action), s.fg.waiting = 0 →
    (∀ a v, s.fg.todo = .write a v :: rest →
      perform .foreground s = .next { memWrite a v s with fg := { s.fg with rest := rest } }) ∧
    (∀ a, s.fg.todo = .read a .d :: rest →
      perform .foreground s =
        .next { s with readData := some (memRead a s), fg := { s.fg with rest := rest, d := memRead a s } }) ∧
    (∀ a, s.fg.todo = .read a .s :: rest →
      perform .foreground s =
        .next { s with readData := some (memRead a s), fg := { s.fg with rest := rest, st := memRead a s } }) ∧
    (∀ n, s.fg.todo = .delay n :: rest →
      perform .foreground s = .next { s with fg := { s.fg with rest := rest, waiting := n } }) ∧
    (s.fg.todo = .emit :: rest →
      perform .foreground s = .next { s with fg := { s.fg with rest := rest, emitted := s.fg.d :: s.fg.emitted } }) ∧
    (s.fg.todo = .clearOrEmit :: rest → s.fg.st.getLsbD 3 = true →
      perform .foreground s = .next { s with seqErr := false, fg := { s.fg with rest := rest } }) ∧
    (s.fg.todo = .clearOrEmit :: rest → s.fg.st.getLsbD 3 = false →
      perform .foreground s = .next { s with fg := { s.fg with rest := rest, emitted := s.fg.d :: s.fg.emitted } })

/-- 42_bus_and_trigger.md R114: until the ticks a delay owes have occurred, the foreground agent performs no bus operation and does nothing else, however often its turn comes. -/
def Obligations.DelayHoldsTheForegroundAgent : Prop :=
  ∀ (es : List Event) (s : State), ticksIn es < s.fg.waiting →
    ∃ t, runEvents es s = .next t ∧ foregroundOperations es s = [] ∧
      t.fg = { s.fg with waiting := s.fg.waiting - ticksIn es }

/-- 42_bus_and_trigger.md R113: in any run, from the start of a cycle, the foreground agent's own bus operations are assert, de-assert, read of the distance, over and over in that order
and no other. -/
def Obligations.RunCyclePerformsItsThreeOperations : Prop :=
  ∀ (es : List Event) (s : State), s.fg.prog = runCycle → s.fg.rest = runCycle →
    ∃ n, foregroundOperations es s <+: (List.replicate n [.trigAssert, .trigDeassert, .rdDist]).flatten

/-- 42_bus_and_trigger.md R113, 95_test_vectors.md S6, P1: one iteration of `RUN_CYCLE` in whose wait an echo of `k` ticks comes and goes, each edge handled at any time
before the next is sampled, emits floor((`k` mod 65536) / 58), floor(`k` / 58) for a pulse below one wrap, from any counter value and whatever ticks,
samples, idle turns and bus operations of others come between; the trigger pin is high for the hold and low after it. The foreground
agent is log 6's, the idle turns of the pipeline are log 4's. -/
def Obligations.CycleWithEchoEmitsItsDistance : Prop :=
  ∀ (s : State) (a hold b gap rise high fall tail c : List Event),
    s.fg.todo = runCycle → s.fg.waiting = 0 → s.edgeFlag = false → s.echoSync = false →
    OneCycle a hold b (echoIn gap rise high fall tail) c →
    (∀ e ∈ a ++ hold ++ b ++ gap ++ tail ++ c, calmAt false false e = true) →
    (∀ e ∈ rise, quietAt true e = true) → (∀ e ∈ high, calmAt false true e = true) → (∀ e ∈ fall, quietAt false e = true) →
    (∃ t, runEvents (cycleSchedule a hold b (echoIn gap rise high fall tail) c) s = .next t ∧
      t.fg.emitted = BitVec.ofNat 16 ((ticksIn rise + ticksIn high) % 65536 / 58) :: s.fg.emitted ∧
      (ticksIn rise + ticksIn high ≤ 65535 →
        t.fg.emitted = BitVec.ofNat 16 ((ticksIn rise + ticksIn high) / 58) :: s.fg.emitted) ∧
      t.fg.rest = []) ∧
    PinFollowsTheCycle s a hold b (echoIn gap rise high fall tail) c

/-- 42_bus_and_trigger.md R113, R104, 95_test_vectors.md S7, P5: one iteration of `RUN_CYCLE` in which no edge comes emits the reading already there, and completes, whatever
ticks, samples at the standing level, idle turns and bus operations of others come between; the trigger pin is high for the hold and low after
it. An event pending from before stays pending (the pipeline then takes no turn). The foreground agent is log 6's, the idle turns of the pipeline are
log 4's. -/
def Obligations.CycleWithoutEchoEmitsTheOldReading : Prop :=
  ∀ (s : State) (a hold b wait c : List Event),
    s.fg.todo = runCycle → s.fg.waiting = 0 → OneCycle a hold b wait c →
    (∀ e ∈ a ++ hold ++ b ++ wait ++ c, calmAt s.edgeFlag s.echoSync e = true) →
    (∃ t, runEvents (cycleSchedule a hold b wait c) s = .next t ∧
      t.fg.emitted = s.dist :: s.fg.emitted ∧ t.dist = s.dist ∧ t.fg.rest = []) ∧
    PinFollowsTheCycle s a hold b wait c

/-! ### Liveness, under the fairness of 00_scope.md R14 -/

/-- 00_scope.md R14 (b): in every execution fair to the pipeline, the edge flag does not stay set for ever: the event is handled, or a reset
discards it. -/
def Obligations.EdgeFlagDoesNotStaySetForever : Prop :=
  ∀ (ev : Nat → Event) (st : Nat → State), IsExecution ev st → HandleFair ev st →
    ∀ n, ∃ m, n ≤ m ∧ (st m).edgeFlag = false

/-- 00_scope.md R14 (a), 42_bus_and_trigger.md R114: in every execution fair to the counter, every delay ends. -/
def Obligations.DelayEventuallyEnds : Prop :=
  ∀ (ev : Nat → Event) (st : Nat → State), IsExecution ev st → TickFair ev →
    ∀ n, ∃ m, n ≤ m ∧ (st m).fg.waiting = 0

/-- 42_bus_and_trigger.md R113: in every execution fair to the counter in which the foreground agent keeps taking its turn, `RUN_CYCLE` emits a reading again and again, whatever the echo line and the
pipeline do: the cycle "still completes ... without blocking indefinitely". -/
def Obligations.CycleNeverBlocks : Prop :=
  ∀ (ev : Nat → Event) (st : Nat → State), IsExecution ev st → TickFair ev → ForegroundFair ev →
    (st 0).fg.prog = runCycle → (st 0).fg.rest <:+ runCycle →
    ∀ n, ∃ m, n ≤ m ∧ (st n).fg.emitted.length < (st m).fg.emitted.length

/-! ### What the rules above leave to the model's own fields -/

/-- The model's choice: a `RESET` of the block leaves the foreground agent (log 6), the last read's data (log 5) and the schedule (log 3) as they were;
70_reset_and_hazards.md R140 gives values to the block's elements only. -/
def Obligations.ResetLeavesTheEnvironmentAlone : Prop :=
  (∀ s : State, ∃ t, exec .reset s = .next t ∧ t.fg = s.fg ∧ t.readData = s.readData ∧ t.schedule = s.schedule) ∧
  (∀ (s : State) (c : Option Word), ∃ t, perform (.reset c) s = .next t ∧
    t.fg = s.fg ∧ t.readData = s.readData ∧ t.schedule = s.schedule)

/-- 42_bus_and_trigger.md R114, 40_counter_and_capture.md R80: `n` ticks add `n` to the counter, count `n` off the delay the foreground agent is waiting for, and change nothing else
of the machine. That a tick counts towards the delay in the agent's own field is the model's choice (log 6). -/
def Obligations.TicksCountDownTheDelay : Prop :=
  ∀ (n : Nat) (s : State), runEvents (tickN n) s =
    .next { s with cnt := BitVec.ofNat 16 ((s.cnt.toNat + n) % 65536), fg := { s.fg with waiting := s.fg.waiting - n } }

/-- 00_scope.md R14 (b), 41_distance_pipeline.md R90: in every execution fair to the pipeline, an event that is pending and that no reset discards is eventually handled: a `HANDLE` comes that performs
the operation of the captured polarity on the captured counter value. -/
def Obligations.PendingEdgeIsEventuallyHandled : Prop :=
  ∀ (ev : Nat → Event) (st : Nat → State), IsExecution ev st → HandleFair ev st →
    ∀ n, (st n).edgeFlag = true → (∀ m c, n ≤ m → ev m ≠ .reset c) →
      ∃ m, n ≤ m ∧ ev m = .handle ∧
        operationOf .handle (st m) = some (if (st n).pol then .handleRise (st n).capt else .handleFall (st n).capt)
end

