-- ==== Sys2Proof/Laws/Arith.lean ====
section
/-! SUPPORT. The pipeline's arithmetic as numbers (41_distance_pipeline.md R94 to R96). -/

namespace Sys2Proof.Machine

theorem sub16_toNat (a b : Word) : (sub16 a b).toNat = (a.toNat + 65536 - b.toNat) % 65536 := by
  simp [sub16, Config.modulus]

theorem udivDivisor_toNat (a : Word) : (udivDivisor a).toNat = a.toNat / 58 := by
  have := a.isLt
  simp only [udivDivisor, Config.divisor, BitVec.toNat_ofNat]
  omega

theorem computeDistance_toNat (rise fall : Word) :
    (computeDistance rise fall).toNat = (fall.toNat + 65536 - rise.toNat) % 65536 / 58 := by
  rw [computeDistance, udivDivisor_toNat, sub16_toNat]

theorem computeDistance_le (rise fall : Word) : (computeDistance rise fall).toNat ≤ 1129 := by
  rw [computeDistance_toNat]
  omega

theorem succ_toNat (a : Word) : (a + 1).toNat = (a.toNat + 1) % 65536 := by
  simp [BitVec.toNat_add]

end Sys2Proof.Machine
end

