-- ==== Sys2Proof/Laws/Decode.lean ====
section
/-! SUPPORT. What the decoder reads from the words the agents' inputs form (30_encoding.md R61 to R66). -/

namespace Sys2Proof.Machine

theorem fits_iff (w : FmtWord) : w.fits = true ↔ w.bits < 2 ^ w.fmt.width := by
  simp only [FmtWord.fits, decide_eq_true_eq]

/-- A bit of a number as a quotient's parity, the form `omega` reads. -/
theorem getLsbD_ofNat_div (w x i : Nat) :
    (BitVec.ofNat w x).getLsbD i = (decide (i < w) && decide (x / 2 ^ i % 2 = 1)) := by
  rw [BitVec.getLsbD_ofNat, Nat.testBit_eq_decide_div_mod_eq]

theorem handoff_capt (b : Nat) (c : Word) :
    (BitVec.ofNat 18 (0x10000 * b + c.toNat)).extractLsb' 0 16 = c := by
  apply BitVec.eq_of_toNat_eq
  have := c.isLt
  simp only [BitVec.extractLsb'_toNat, BitVec.toNat_ofNat, Nat.shiftRight_zero]
  omega

theorem decode_handoffWord (f p : Bool) (c : Word) :
    decode (handoffWord f p c) =
      .ok (if f then (if p then .handleRise c else .handleFall c) else .hIdle) := by
  have hc := c.isLt
  have hb : (handoffWord f p c).bits = 0x10000 * (2 * f.toNat + p.toNat) + c.toNat := by
    simp only [handoffWord]; omega
  have h17 : (BitVec.ofNat 18 (handoffWord f p c).bits).getLsbD 17 = f := by
    rw [getLsbD_ofNat_div, hb]
    cases f <;> cases p <;> simp <;> omega
  have h16 : (BitVec.ofNat 18 (handoffWord f p c).bits).getLsbD 16 = p := by
    rw [getLsbD_ofNat_div, hb]
    cases f <;> cases p <;> simp <;> omega
  have hfit : (handoffWord f p c).fits = true := by
    simp only [FmtWord.fits, hb]
    cases f <;> cases p <;> simp [handoffWord, Fmt.width] <;> omega
  have hd : decode (handoffWord f p c) = .ok (decodeH (BitVec.ofNat 18 (handoffWord f p c).bits)) := by
    unfold decode; rw [hfit]; rfl
  rw [hd, decodeH, h17, h16, hb, handoff_capt]
  cases f <;> cases p <;> rfl

theorem decode_busWord (we : Bool) (a : Addr) (v : Word) :
    decode (busWord we a v) = .ok (decodeBus we a v) := by
  have ha := a.isLt
  have hv := v.isLt
  have hb : (busWord we a v).bits = 0x10000 * (8 * we.toNat + a.toNat) + v.toNat := by
    simp only [busWord]; omega
  have hwe : we.toNat ≤ 1 := by cases we <;> simp
  have h19 : (BitVec.ofNat 20 (busWord we a v).bits).getLsbD 19 = we := by
    rw [getLsbD_ofNat_div, hb]
    cases we <;> simp <;> omega
  have haddr : (BitVec.ofNat 20 (busWord we a v).bits).extractLsb' 16 3 = a := by
    apply BitVec.eq_of_toNat_eq
    simp only [BitVec.extractLsb'_toNat, BitVec.toNat_ofNat, hb, Nat.shiftRight_eq_div_pow]
    omega
  have hdata : (BitVec.ofNat 20 (busWord we a v).bits).extractLsb' 0 16 = v := by
    apply BitVec.eq_of_toNat_eq
    simp only [BitVec.extractLsb'_toNat, BitVec.toNat_ofNat, hb, Nat.shiftRight_zero]
    omega
  have hfit : (busWord we a v).fits = true := by
    simp only [FmtWord.fits, hb, decide_eq_true_eq]
    simp only [busWord, Fmt.width]; omega
  have hd : decode (busWord we a v) = .ok (decodeB (BitVec.ofNat 20 (busWord we a v).bits)) := by
    unfold decode; rw [hfit]; rfl
  rw [hd, decodeB, h19, haddr, hdata]

theorem decode_tickWord : decode tickWord = .ok .tick := by decide

theorem decode_resetWord : decode resetWord = .ok .reset := by decide

/-- The operation a sample selects, by the last level and the new one (R62). -/
def edgeOperation (prev lvl : Bool) : Instr :=
  match prev, lvl with
  | false, false => .noEdgeLow
  | false, true  => .edgeRise
  | true,  false => .edgeFall
  | true,  true  => .noEdgeHigh

theorem decode_edgeWord (p l : Bool) : decode (edgeWord p l) = .ok (edgeOperation p l) := by
  cases p <;> cases l <;> decide

/-! Words as numbers: the masks of the opcode map (30_encoding.md R67). -/

/-- A mask on a number cut at bit 16. -/
theorem and_cut16 (q r k m : Nat) (hr : r < 2 ^ 16) (hm : m < 2 ^ 16) :
    (2 ^ 16 * q + r) &&& (2 ^ 16 * k + m) = 2 ^ 16 * (q &&& k) + (r &&& m) := by
  apply Nat.eq_of_testBit_eq
  intro i
  rw [Nat.testBit_and, Nat.testBit_two_pow_mul_add _ hr, Nat.testBit_two_pow_mul_add _ hm,
    Nat.testBit_two_pow_mul_add _ (Nat.lt_of_le_of_lt Nat.and_le_left hr)]
  split <;> rw [Nat.testBit_and]

/-- A mask of one bit. -/
theorem and_bit (r i : Nat) : r &&& 2 ^ i = 2 ^ i * (r / 2 ^ i % 2) := by
  rw [Nat.and_two_pow, Nat.testBit_eq_decide_div_mod_eq]
  rcases Nat.mod_two_eq_zero_or_one (r / 2 ^ i) with h | h <;> simp [h]

/-- Every word of format B is the word of some bus operation. -/
theorem exists_busWord {b : Nat} (h : b < 2 ^ 20) : ∃ (we : Bool) (a : Addr) (v : Word), busWord we a v = ⟨.B, b⟩ := by
  refine ⟨decide (b / 2 ^ 19 = 1), BitVec.ofNat 3 (b / 2 ^ 16), BitVec.ofNat 16 b, ?_⟩
  have hw : (decide (b / 2 ^ 19 = 1)).toNat = b / 2 ^ 19 := by
    rcases (by omega : b / 2 ^ 19 = 0 ∨ b / 2 ^ 19 = 1) with h' | h' <;> rw [h'] <;> rfl
  simp only [busWord, hw, BitVec.toNat_ofNat, FmtWord.mk.injEq, true_and]
  omega

/-- Every word of format H is some handoff word. -/
theorem exists_handoffWord {b : Nat} (h : b < 2 ^ 18) :
    ∃ (f p : Bool) (c : Word), handoffWord f p c = ⟨.H, b⟩ := by
  refine ⟨decide (b / 2 ^ 17 = 1), decide (b / 2 ^ 16 % 2 = 1), BitVec.ofNat 16 b, ?_⟩
  have hf : (decide (b / 2 ^ 17 = 1)).toNat = b / 2 ^ 17 := by
    rcases (by omega : b / 2 ^ 17 = 0 ∨ b / 2 ^ 17 = 1) with h' | h' <;> rw [h'] <;> rfl
  have hp : (decide (b / 2 ^ 16 % 2 = 1)).toNat = b / 2 ^ 16 % 2 := by
    rcases (by omega : b / 2 ^ 16 % 2 = 0 ∨ b / 2 ^ 16 % 2 = 1) with h' | h' <;> rw [h'] <;> rfl
  simp only [handoffWord, hf, hp, BitVec.toNat_ofNat, FmtWord.mk.injEq, true_and]
  omega

/-- A row's mask on a word of format B: `we` and `addr`, and the masked write data. -/
theorem busWord_and (we : Bool) (a : Addr) (v : Word) (m : Nat) (hm : m < 2 ^ 16) :
    (busWord we a v).bits &&& (2 ^ 16 * 15 + m) = 2 ^ 16 * (8 * we.toNat + a.toNat) + (v.toNat &&& m) := by
  have h := and_cut16 (8 * we.toNat + a.toNat) v.toNat 15 m v.isLt hm
  have h2 : (busWord we a v).bits = 2 ^ 16 * (8 * we.toNat + a.toNat) + v.toNat := by simp only [busWord]; omega
  rw [h2, h, show (15 : Nat) = 2 ^ 4 - 1 by rfl, Nat.and_two_pow_sub_one_eq_mod, Nat.mod_eq_of_lt]
  have := a.isLt
  cases we <;> simp <;> omega

/-- One bit of the write data. -/
theorem toNat_and_bit (v : Word) (i : Nat) : v.toNat &&& 2 ^ i = 2 ^ i * (v.getLsbD i).toNat := by
  rw [and_bit, BitVec.getLsbD, Nat.testBit_eq_decide_div_mod_eq]
  rcases Nat.mod_two_eq_zero_or_one (v.toNat / 2 ^ i) with h | h <;> rw [h] <;> rfl

end Sys2Proof.Machine
end

