-- ==== Sys2Proof/Laws/State.lean ====
section
/-! SUPPORT. One lemma per field per shared operation, true by rfl or by the one case split the operation makes, so that no later proof
unfolds an update. -/

namespace Sys2Proof.Machine

/-! ### `followLine` -/

@[simp] theorem followLine_cnt (l : Bool) (s : State) : (followLine l s).cnt = s.cnt := rfl
@[simp] theorem followLine_echoSync (l : Bool) (s : State) : (followLine l s).echoSync = l := rfl
@[simp] theorem followLine_capt (l : Bool) (s : State) : (followLine l s).capt = s.capt := rfl
@[simp] theorem followLine_pol (l : Bool) (s : State) : (followLine l s).pol = s.pol := rfl
@[simp] theorem followLine_edgeFlag (l : Bool) (s : State) : (followLine l s).edgeFlag = s.edgeFlag := rfl
@[simp] theorem followLine_riseTs (l : Bool) (s : State) : (followLine l s).riseTs = s.riseTs := rfl
@[simp] theorem followLine_dist (l : Bool) (s : State) : (followLine l s).dist = s.dist := rfl
@[simp] theorem followLine_edgeState (l : Bool) (s : State) : (followLine l s).edgeState = s.edgeState := rfl
@[simp] theorem followLine_seqErr (l : Bool) (s : State) : (followLine l s).seqErr = s.seqErr := rfl
@[simp] theorem followLine_trig (l : Bool) (s : State) : (followLine l s).trig = s.trig := rfl
@[simp] theorem followLine_fg (l : Bool) (s : State) : (followLine l s).fg = s.fg := rfl
@[simp] theorem followLine_readData (l : Bool) (s : State) : (followLine l s).readData = s.readData := rfl
@[simp] theorem followLine_cntChoice (l : Bool) (s : State) : (followLine l s).cntChoice = s.cntChoice := rfl
@[simp] theorem followLine_schedule (l : Bool) (s : State) : (followLine l s).schedule = s.schedule := rfl
@[simp] theorem followLine_drawn (l : Bool) (s : State) : (followLine l s).drawn = s.drawn := rfl

/-! ### `clearEdgeFlag` -/

@[simp] theorem clearEdgeFlag_cnt (s : State) : (clearEdgeFlag s).cnt = s.cnt := rfl
@[simp] theorem clearEdgeFlag_echoSync (s : State) : (clearEdgeFlag s).echoSync = s.echoSync := rfl
@[simp] theorem clearEdgeFlag_capt (s : State) : (clearEdgeFlag s).capt = s.capt := rfl
@[simp] theorem clearEdgeFlag_pol (s : State) : (clearEdgeFlag s).pol = s.pol := rfl
@[simp] theorem clearEdgeFlag_edgeFlag (s : State) : (clearEdgeFlag s).edgeFlag = false := rfl
@[simp] theorem clearEdgeFlag_riseTs (s : State) : (clearEdgeFlag s).riseTs = s.riseTs := rfl
@[simp] theorem clearEdgeFlag_dist (s : State) : (clearEdgeFlag s).dist = s.dist := rfl
@[simp] theorem clearEdgeFlag_edgeState (s : State) : (clearEdgeFlag s).edgeState = s.edgeState := rfl
@[simp] theorem clearEdgeFlag_seqErr (s : State) : (clearEdgeFlag s).seqErr = s.seqErr := rfl
@[simp] theorem clearEdgeFlag_trig (s : State) : (clearEdgeFlag s).trig = s.trig := rfl
@[simp] theorem clearEdgeFlag_fg (s : State) : (clearEdgeFlag s).fg = s.fg := rfl
@[simp] theorem clearEdgeFlag_readData (s : State) : (clearEdgeFlag s).readData = s.readData := rfl
@[simp] theorem clearEdgeFlag_cntChoice (s : State) : (clearEdgeFlag s).cntChoice = s.cntChoice := rfl
@[simp] theorem clearEdgeFlag_schedule (s : State) : (clearEdgeFlag s).schedule = s.schedule := rfl
@[simp] theorem clearEdgeFlag_drawn (s : State) : (clearEdgeFlag s).drawn = s.drawn := rfl

/-! ### `advanceEdgeMachine` -/

@[simp] theorem advanceEdgeMachine_cnt (r : Bool) (s : State) : (advanceEdgeMachine r s).cnt = s.cnt := rfl
@[simp] theorem advanceEdgeMachine_echoSync (r : Bool) (s : State) : (advanceEdgeMachine r s).echoSync = s.echoSync := rfl
@[simp] theorem advanceEdgeMachine_capt (r : Bool) (s : State) : (advanceEdgeMachine r s).capt = s.capt := rfl
@[simp] theorem advanceEdgeMachine_pol (r : Bool) (s : State) : (advanceEdgeMachine r s).pol = s.pol := rfl
@[simp] theorem advanceEdgeMachine_edgeFlag (r : Bool) (s : State) : (advanceEdgeMachine r s).edgeFlag = s.edgeFlag := rfl
@[simp] theorem advanceEdgeMachine_riseTs (r : Bool) (s : State) : (advanceEdgeMachine r s).riseTs = s.riseTs := rfl
@[simp] theorem advanceEdgeMachine_dist (r : Bool) (s : State) : (advanceEdgeMachine r s).dist = s.dist := rfl
@[simp] theorem advanceEdgeMachine_edgeState (r : Bool) (s : State) : (advanceEdgeMachine r s).edgeState = edgeStateAfter r := rfl
@[simp] theorem advanceEdgeMachine_seqErr (r : Bool) (s : State) : (advanceEdgeMachine r s).seqErr = seqErrAfter r s := rfl
@[simp] theorem advanceEdgeMachine_trig (r : Bool) (s : State) : (advanceEdgeMachine r s).trig = s.trig := rfl
@[simp] theorem advanceEdgeMachine_fg (r : Bool) (s : State) : (advanceEdgeMachine r s).fg = s.fg := rfl
@[simp] theorem advanceEdgeMachine_readData (r : Bool) (s : State) : (advanceEdgeMachine r s).readData = s.readData := rfl
@[simp] theorem advanceEdgeMachine_cntChoice (r : Bool) (s : State) : (advanceEdgeMachine r s).cntChoice = s.cntChoice := rfl
@[simp] theorem advanceEdgeMachine_schedule (r : Bool) (s : State) : (advanceEdgeMachine r s).schedule = s.schedule := rfl
@[simp] theorem advanceEdgeMachine_drawn (r : Bool) (s : State) : (advanceEdgeMachine r s).drawn = s.drawn := rfl

/-! ### `busRead` -/

@[simp] theorem busRead_cnt (a : Addr) (s : State) : (busRead a s).cnt = s.cnt := rfl
@[simp] theorem busRead_echoSync (a : Addr) (s : State) : (busRead a s).echoSync = s.echoSync := rfl
@[simp] theorem busRead_capt (a : Addr) (s : State) : (busRead a s).capt = s.capt := rfl
@[simp] theorem busRead_pol (a : Addr) (s : State) : (busRead a s).pol = s.pol := rfl
@[simp] theorem busRead_edgeFlag (a : Addr) (s : State) : (busRead a s).edgeFlag = s.edgeFlag := rfl
@[simp] theorem busRead_riseTs (a : Addr) (s : State) : (busRead a s).riseTs = s.riseTs := rfl
@[simp] theorem busRead_dist (a : Addr) (s : State) : (busRead a s).dist = s.dist := rfl
@[simp] theorem busRead_edgeState (a : Addr) (s : State) : (busRead a s).edgeState = s.edgeState := rfl
@[simp] theorem busRead_seqErr (a : Addr) (s : State) : (busRead a s).seqErr = s.seqErr := rfl
@[simp] theorem busRead_trig (a : Addr) (s : State) : (busRead a s).trig = s.trig := rfl
@[simp] theorem busRead_fg (a : Addr) (s : State) : (busRead a s).fg = s.fg := rfl
@[simp] theorem busRead_readData (a : Addr) (s : State) : (busRead a s).readData = some (memRead a s) := rfl
@[simp] theorem busRead_cntChoice (a : Addr) (s : State) : (busRead a s).cntChoice = s.cntChoice := rfl
@[simp] theorem busRead_schedule (a : Addr) (s : State) : (busRead a s).schedule = s.schedule := rfl
@[simp] theorem busRead_drawn (a : Addr) (s : State) : (busRead a s).drawn = s.drawn := rfl

/-! ### `captureEvent`: an edge that finds the flag set latches nothing (R87) -/

@[simp] theorem captureEvent_cnt (r : Bool) (s : State) : (captureEvent r s).cnt = s.cnt := by
  unfold captureEvent; split <;> rfl
@[simp] theorem captureEvent_echoSync (r : Bool) (s : State) : (captureEvent r s).echoSync = s.echoSync := by
  unfold captureEvent; split <;> rfl
@[simp] theorem captureEvent_capt (r : Bool) (s : State) : (captureEvent r s).capt = if s.edgeFlag then s.capt else s.cnt := by
  unfold captureEvent; cases s.edgeFlag <;> rfl
@[simp] theorem captureEvent_pol (r : Bool) (s : State) : (captureEvent r s).pol = if s.edgeFlag then s.pol else r := by
  unfold captureEvent; cases s.edgeFlag <;> rfl
@[simp] theorem captureEvent_edgeFlag (r : Bool) (s : State) : (captureEvent r s).edgeFlag = true := by
  unfold captureEvent; cases h : s.edgeFlag <;> simp [h]
@[simp] theorem captureEvent_riseTs (r : Bool) (s : State) : (captureEvent r s).riseTs = s.riseTs := by
  unfold captureEvent; split <;> rfl
@[simp] theorem captureEvent_dist (r : Bool) (s : State) : (captureEvent r s).dist = s.dist := by
  unfold captureEvent; split <;> rfl
@[simp] theorem captureEvent_edgeState (r : Bool) (s : State) : (captureEvent r s).edgeState = s.edgeState := by
  unfold captureEvent; split <;> rfl
@[simp] theorem captureEvent_seqErr (r : Bool) (s : State) : (captureEvent r s).seqErr = s.seqErr := by
  unfold captureEvent; split <;> rfl
@[simp] theorem captureEvent_trig (r : Bool) (s : State) : (captureEvent r s).trig = s.trig := by
  unfold captureEvent; split <;> rfl
@[simp] theorem captureEvent_fg (r : Bool) (s : State) : (captureEvent r s).fg = s.fg := by
  unfold captureEvent; split <;> rfl
@[simp] theorem captureEvent_readData (r : Bool) (s : State) : (captureEvent r s).readData = s.readData := by
  unfold captureEvent; split <;> rfl
@[simp] theorem captureEvent_cntChoice (r : Bool) (s : State) : (captureEvent r s).cntChoice = s.cntChoice := by
  unfold captureEvent; split <;> rfl
@[simp] theorem captureEvent_schedule (r : Bool) (s : State) : (captureEvent r s).schedule = s.schedule := by
  unfold captureEvent; split <;> rfl
@[simp] theorem captureEvent_drawn (r : Bool) (s : State) : (captureEvent r s).drawn = s.drawn := by
  unfold captureEvent; split <;> rfl

/-! ### `memWrite`: only `TRIG` and `SEQ_ERR` can be written (20_memory.md R43) -/

@[simp] theorem memWrite_cnt (a : Addr) (v : Word) (s : State) : (memWrite a v s).cnt = s.cnt := by
  unfold memWrite; split
  · rfl
  · split <;> rfl
@[simp] theorem memWrite_echoSync (a : Addr) (v : Word) (s : State) : (memWrite a v s).echoSync = s.echoSync := by
  unfold memWrite; split
  · rfl
  · split <;> rfl
@[simp] theorem memWrite_capt (a : Addr) (v : Word) (s : State) : (memWrite a v s).capt = s.capt := by
  unfold memWrite; split
  · rfl
  · split <;> rfl
@[simp] theorem memWrite_pol (a : Addr) (v : Word) (s : State) : (memWrite a v s).pol = s.pol := by
  unfold memWrite; split
  · rfl
  · split <;> rfl
@[simp] theorem memWrite_edgeFlag (a : Addr) (v : Word) (s : State) : (memWrite a v s).edgeFlag = s.edgeFlag := by
  unfold memWrite; split
  · rfl
  · split <;> rfl
@[simp] theorem memWrite_riseTs (a : Addr) (v : Word) (s : State) : (memWrite a v s).riseTs = s.riseTs := by
  unfold memWrite; split
  · rfl
  · split <;> rfl
@[simp] theorem memWrite_dist (a : Addr) (v : Word) (s : State) : (memWrite a v s).dist = s.dist := by
  unfold memWrite; split
  · rfl
  · split <;> rfl
@[simp] theorem memWrite_edgeState (a : Addr) (v : Word) (s : State) : (memWrite a v s).edgeState = s.edgeState := by
  unfold memWrite; split
  · rfl
  · split <;> rfl
@[simp] theorem memWrite_seqErr (a : Addr) (v : Word) (s : State) : (memWrite a v s).seqErr = if a = addrStatus ∧ v.getLsbD 3 = true then false else s.seqErr := by
  unfold memWrite; split
  · next h => subst h; rfl
  · split <;> rfl
@[simp] theorem memWrite_trig (a : Addr) (v : Word) (s : State) : (memWrite a v s).trig = if a = addrTrigr then v.getLsbD 0 else s.trig := by
  unfold memWrite; split
  · rfl
  · split <;> rfl
@[simp] theorem memWrite_fg (a : Addr) (v : Word) (s : State) : (memWrite a v s).fg = s.fg := by
  unfold memWrite; split
  · rfl
  · split <;> rfl
@[simp] theorem memWrite_readData (a : Addr) (v : Word) (s : State) : (memWrite a v s).readData = s.readData := by
  unfold memWrite; split
  · rfl
  · split <;> rfl
@[simp] theorem memWrite_cntChoice (a : Addr) (v : Word) (s : State) : (memWrite a v s).cntChoice = s.cntChoice := by
  unfold memWrite; split
  · rfl
  · split <;> rfl
@[simp] theorem memWrite_schedule (a : Addr) (v : Word) (s : State) : (memWrite a v s).schedule = s.schedule := by
  unfold memWrite; split
  · rfl
  · split <;> rfl
@[simp] theorem memWrite_drawn (a : Addr) (v : Word) (s : State) : (memWrite a v s).drawn = s.drawn := by
  unfold memWrite; split
  · rfl
  · split <;> rfl

theorem captureEvent_pending (r : Bool) (s : State) (h : s.edgeFlag = true) : captureEvent r s = s := by
  simp [captureEvent, h]

theorem captureEvent_free (r : Bool) (s : State) (h : s.edgeFlag = false) :
    captureEvent r s = { s with capt := s.cnt, pol := r, edgeFlag := true } := by
  simp [captureEvent, h]

end Sys2Proof.Machine
end

