-- ==== Sys2Proof/Laws/Registers.lean ====
section
/-! SUPPORT. The register space word by word (20_memory.md R41, R42), and the value of the composite views. -/

namespace Sys2Proof.Machine

@[simp] theorem memRead_cnt (s : State) : memRead addrCnt s = s.cnt := rfl
@[simp] theorem memRead_capt (s : State) : memRead addrCapt s = s.capt := rfl
@[simp] theorem memRead_status (s : State) : memRead addrStatus s = statusWord s := rfl
@[simp] theorem memRead_dist (s : State) : memRead addrDist s = s.dist := rfl
@[simp] theorem memRead_trigr (s : State) : memRead addrTrigr s = trigrWord s := rfl
@[simp] theorem memRead_rsvd5 (s : State) : memRead 5 s = 0 := rfl
@[simp] theorem memRead_rsvd6 (s : State) : memRead 6 s = 0 := rfl
@[simp] theorem memRead_rsvd7 (s : State) : memRead 7 s = 0 := rfl

/-- A write of `TRIGR` (R43). -/
theorem memWrite_trigr (v : Word) (s : State) : memWrite addrTrigr v s = { s with trig := v.getLsbD 0 } := if_pos rfl

/-- A write of `STATUS` (R43). -/
theorem memWrite_status (v : Word) (s : State) :
    memWrite addrStatus v s = if v.getLsbD 3 then { s with seqErr := false } else s := by
  unfold memWrite
  rw [if_neg (show ¬ addrStatus = addrTrigr by decide)]
  simp only [true_and]

/-- A write of any other address is ignored (R43). -/
theorem memWrite_ignored {a : Addr} (h4 : a ≠ addrTrigr) (h2 : a ≠ addrStatus) (v : Word) (s : State) :
    memWrite a v s = s := by
  unfold memWrite
  rw [if_neg h4, if_neg (fun h => h2 h.1)]

/-- Every word address is one of the eight (R40). -/
theorem addr_cases (a : Addr) :
    a = addrCnt ∨ a = addrCapt ∨ a = addrStatus ∨ a = addrDist ∨ a = addrTrigr ∨ a = 5 ∨ a = 6 ∨ a = 7 := by
  revert a; decide

theorem bitWord_toNat (b : Bool) : (bitWord b).toNat = b.toNat := by cases b <;> rfl

theorem statusWord_toNat (s : State) :
    (statusWord s).toNat =
      s.edgeFlag.toNat + 2 * s.pol.toNat + 4 * (edgeStateBit s.edgeState).toNat + 8 * s.seqErr.toNat
        + 16 * s.echoSync.toNat := by
  unfold statusWord
  cases s.edgeFlag <;> cases s.pol <;> cases edgeStateBit s.edgeState <;> cases s.seqErr <;> cases s.echoSync <;> rfl

/-- `STATUS` is a function of its five elements. -/
theorem statusWord_congr {s t : State} (h0 : s.edgeFlag = t.edgeFlag) (h1 : s.pol = t.pol)
    (h2 : s.edgeState = t.edgeState) (h3 : s.seqErr = t.seqErr) (h4 : s.echoSync = t.echoSync) :
    statusWord s = statusWord t := by
  simp [statusWord, h0, h1, h2, h3, h4]

end Sys2Proof.Machine
end

