-- ==== Sys2Proof/Laws/Exec.lean ====
section
/-! SUPPORT. What each operation answers, cited instead of unfolding `exec`. -/

namespace Sys2Proof.Machine

/-- The state after an operation, in terms of the shared operations. -/
def afterOp (i : Instr) (s : State) : State :=
  match i with
  | .tick => { s with cnt := s.cnt + 1 }
  | .reset =>
    { s with
      cnt := s.cntChoice.getD (Config.cntReset s.drawn), echoSync := false, capt := 0, pol := false, edgeFlag := false
      riseTs := 0, dist := 0, edgeState := .awaitingRise, seqErr := false, trig := false
      cntChoice := none, drawn := s.drawn + 1 }
  | .noEdgeLow => s
  | .edgeRise => followLine true (captureEvent true s)
  | .edgeFall => followLine false (captureEvent false s)
  | .noEdgeHigh => s
  | .handleRise c => clearEdgeFlag { advanceEdgeMachine true s with riseTs := c }
  | .handleFall c => clearEdgeFlag { advanceEdgeMachine false s with dist := computeDistance s.riseTs c }
  | .hIdle => s
  | .rdCnt => busRead addrCnt s
  | .rdCapt => busRead addrCapt s
  | .rdStatus => busRead addrStatus s
  | .rdDist => busRead addrDist s
  | .rdTrig => busRead addrTrigr s
  | .rdRsvd5 => busRead 5 s
  | .rdRsvd6 => busRead 6 s
  | .rdRsvd7 => busRead 7 s
  | .wrIgn0 => s
  | .wrIgn1 => s
  | .wrStatusNop => s
  | .clrSeqErr => { s with seqErr := false }
  | .wrIgn3 => s
  | .trigDeassert => { s with trig := false }
  | .trigAssert => { s with trig := true }
  | .wrIgn5 => s
  | .wrIgn6 => s
  | .wrIgn7 => s

/-- Every operation answers a next state (60_exceptions.md R120). -/
theorem exec_eq_afterOp (i : Instr) (s : State) : exec i s = .next (afterOp i s) := by
  cases i <;> rfl

/-- The state after one bus operation by its fields (42_bus_and_trigger.md R100). -/
def afterBus (we : Bool) (a : Addr) (v : Word) (s : State) : State := if we then memWrite a v s else busRead a s

/-- The operations of format B (30_encoding.md R67 rows 10 to 27). -/
def isBusOperation (i : Instr) : Bool := (encode i).fmt == .B

/-- A bus word selects a bus operation, so none of the other formats' (R64). -/
theorem isBusOperation_decodeBus (we : Bool) (a : Addr) (v : Word) : isBusOperation (decodeBus we a v) = true := by
  cases we
  · show isBusOperation (decodeRead a) = true
    revert a; decide
  · rcases addr_cases a with h | h | h | h | h | h | h | h <;> subst h
    case inr.inr.inl =>
      show isBusOperation (if v.getLsbD 3 then .clrSeqErr else .wrStatusNop) = true
      cases v.getLsbD 3 <;> rfl
    case inr.inr.inr.inr.inl =>
      show isBusOperation (if v.getLsbD 0 then .trigAssert else .trigDeassert) = true
      cases v.getLsbD 0 <;> rfl
    all_goals rfl

theorem afterOp_decodeRead (a : Addr) (s : State) : afterOp (decodeRead a) s = busRead a s := by
  rcases addr_cases a with h | h | h | h | h | h | h | h <;> subst h <;> rfl

theorem afterOp_decodeWrite (a : Addr) (v : Word) (s : State) : afterOp (decodeWrite a v) s = memWrite a v s := by
  rcases addr_cases a with h | h | h | h | h | h | h | h <;> subst h
  case inr.inr.inl =>
    rw [memWrite_status]
    show afterOp (if v.getLsbD 3 then .clrSeqErr else .wrStatusNop) s = _
    cases v.getLsbD 3 <;> rfl
  case inr.inr.inr.inr.inl =>
    rw [memWrite_trigr]
    show afterOp (if v.getLsbD 0 then .trigAssert else .trigDeassert) s = _
    cases v.getLsbD 0 <;> rfl
  all_goals rfl

theorem afterOp_decodeBus (we : Bool) (a : Addr) (v : Word) (s : State) :
    afterOp (decodeBus we a v) s = afterBus we a v s := by
  cases we
  · exact afterOp_decodeRead a s
  · exact afterOp_decodeWrite a v s

end Sys2Proof.Machine
end

