-- ==== Sys2Proof/Laws/Perform.lean ====
section
/-! SUPPORT. What one turn does, said once; and runs as folds of turns. -/

namespace Sys2Proof.Machine

/-- The bus operation the foreground agent asks for, by its fields. -/
def Foreground.busRequest (f : Foreground) : Option (Bool × Addr × Word) :=
  if f.waiting ≠ 0 then none
  else
    match f.todo with
    | .write a v :: _   => some (true, a, v)
    | .read a _ :: _    => some (false, a, 0)
    | .clearOrEmit :: _ => if f.st.getLsbD 3 then some (true, addrStatus, 0x0008) else none
    | _                 => none

theorem Foreground.request_eq (f : Foreground) :
    f.request = f.busRequest.map (fun q => busWord q.1 q.2.1 q.2.2) := by
  unfold Foreground.request Foreground.busRequest
  split
  · rfl
  · split <;> simp_all

/-- The block after the foreground agent's bus operation. -/
def afterRequest (q : Option (Bool × Addr × Word)) (s : State) : State :=
  match q with
  | none           => s
  | some (w, a, v) => afterBus w a v s

/-- The state after one turn. -/
def turn (e : Event) (s : State) : State :=
  match e with
  | .tick       => { s with cnt := s.cnt + 1, fg := s.fg.onTick }
  | .reset c    => afterOp .reset { s with cntChoice := c }
  | .sample l   => if l = s.echoSync then s else followLine l (captureEvent l s)
  | .handle     =>
    if s.edgeFlag then (if s.pol then afterOp (.handleRise s.capt) s else afterOp (.handleFall s.capt) s) else s
  | .bus we a v => afterBus we a v s
  | .foreground =>
    { afterRequest s.fg.busRequest s with fg := s.fg.advance (afterRequest s.fg.busRequest s).readData }

@[simp] theorem afterBus_fg (we : Bool) (a : Addr) (v : Word) (s : State) : (afterBus we a v s).fg = s.fg := by
  cases we <;> simp [afterBus]

@[simp] theorem afterRequest_fg (q : Option (Bool × Addr × Word)) (s : State) : (afterRequest q s).fg = s.fg := by
  rcases q with _ | ⟨w, a, v⟩ <;> simp [afterRequest]

/-- Running a word that decodes is performing its operation. -/
theorem runWord_ok {w : FmtWord} {i : Instr} (h : decode w = .ok i) (s : State) :
    runWord w s = .next (afterOp i s) := by
  simp only [runWord, h, exec_eq_afterOp]

theorem perform_of_present {e : Event} {s : State} {w : FmtWord} {i : Instr} (hp : present e s = some w)
    (hd : decode w = .ok i) : perform e s = .next (notice e (afterOp i (setInputs e s))) := by
  simp only [perform, hp, runWord_ok hd, andThen]

/-- Every turn answers a next state, and this one. -/
theorem perform_eq_turn (e : Event) (s : State) : perform e s = .next (turn e s) := by
  cases e with
  | tick => exact perform_of_present rfl decode_tickWord
  | reset c => exact perform_of_present rfl decode_resetWord
  | sample l =>
    rw [perform_of_present rfl (decode_edgeWord s.echoSync l)]
    cases h : s.echoSync <;> cases l <;> simp [edgeOperation, turn, h, notice, setInputs, afterOp]
  | handle =>
    rw [perform_of_present rfl (decode_handoffWord s.edgeFlag s.pol s.capt)]
    cases h : s.edgeFlag <;> cases h' : s.pol <;> simp [turn, h, h', notice, setInputs, afterOp]
  | bus we a v =>
    rw [perform_of_present rfl (decode_busWord we a v), afterOp_decodeBus]
    rfl
  | foreground =>
    have hr := s.fg.request_eq
    cases hq : s.fg.busRequest with
    | none =>
      rw [hq] at hr
      simp only [perform, present, hr, Option.map_none, turn, hq, afterRequest, notice]
    | some q =>
      rw [hq] at hr
      rw [perform_of_present (show present .foreground s = _ from hr) (decode_busWord q.1 q.2.1 q.2.2),
        afterOp_decodeBus]
      simp [turn, hq, afterRequest, notice, setInputs]

/-- A state with another schedule. -/
def withSchedule (es : List Event) (s : State) : State := { s with schedule := es }

@[simp] theorem withSchedule_cnt (es : List Event) (s : State) : (withSchedule es s).cnt = s.cnt := rfl
@[simp] theorem withSchedule_echoSync (es : List Event) (s : State) : (withSchedule es s).echoSync = s.echoSync := rfl
@[simp] theorem withSchedule_capt (es : List Event) (s : State) : (withSchedule es s).capt = s.capt := rfl
@[simp] theorem withSchedule_pol (es : List Event) (s : State) : (withSchedule es s).pol = s.pol := rfl
@[simp] theorem withSchedule_edgeFlag (es : List Event) (s : State) : (withSchedule es s).edgeFlag = s.edgeFlag := rfl
@[simp] theorem withSchedule_riseTs (es : List Event) (s : State) : (withSchedule es s).riseTs = s.riseTs := rfl
@[simp] theorem withSchedule_dist (es : List Event) (s : State) : (withSchedule es s).dist = s.dist := rfl
@[simp] theorem withSchedule_edgeState (es : List Event) (s : State) : (withSchedule es s).edgeState = s.edgeState := rfl
@[simp] theorem withSchedule_seqErr (es : List Event) (s : State) : (withSchedule es s).seqErr = s.seqErr := rfl
@[simp] theorem withSchedule_trig (es : List Event) (s : State) : (withSchedule es s).trig = s.trig := rfl
@[simp] theorem withSchedule_fg (es : List Event) (s : State) : (withSchedule es s).fg = s.fg := rfl
@[simp] theorem withSchedule_readData (es : List Event) (s : State) : (withSchedule es s).readData = s.readData := rfl
@[simp] theorem withSchedule_cntChoice (es : List Event) (s : State) : (withSchedule es s).cntChoice = s.cntChoice := rfl
@[simp] theorem withSchedule_schedule (es : List Event) (s : State) : (withSchedule es s).schedule = es := rfl
@[simp] theorem withSchedule_drawn (es : List Event) (s : State) : (withSchedule es s).drawn = s.drawn := rfl

@[simp] theorem memRead_withSchedule (a : Addr) (es : List Event) (s : State) :
    memRead a (withSchedule es s) = memRead a s := by
  rcases addr_cases a with h | h | h | h | h | h | h | h <;> subst h <;> rfl

theorem afterBus_withSchedule (we : Bool) (a : Addr) (v : Word) (es : List Event) (s : State) :
    afterBus we a v (withSchedule es s) = withSchedule es (afterBus we a v s) := by
  cases we <;> apply State.ext <;> simp [afterBus]

/-- No turn looks at the schedule. -/
theorem turn_withSchedule (e : Event) (es : List Event) (s : State) :
    turn e (withSchedule es s) = withSchedule es (turn e s) := by
  cases e with
  | tick => rfl
  | reset c => rfl
  | sample l =>
    by_cases h : l = s.echoSync
    · simp [turn, h]
    · cases hf : s.edgeFlag <;> apply State.ext <;> simp [turn, h, hf]
  | handle =>
    cases hf : s.edgeFlag
    · simp [turn, hf]
    · cases hp : s.pol <;> apply State.ext <;> simp [turn, hf, hp, afterOp, seqErrAfter]
  | bus we a v => exact afterBus_withSchedule we a v es s
  | foreground =>
    cases hq : s.fg.busRequest with
    | none => simp only [turn, withSchedule_fg, hq, afterRequest]; rfl
    | some q => simp only [turn, withSchedule_fg, hq, afterRequest, afterBus_withSchedule]; rfl

/-- The state after a run. -/
def run (es : List Event) (s : State) : State :=
  match es with
  | []      => s
  | e :: es => run es (turn e s)

@[simp] theorem run_nil (s : State) : run [] s = s := rfl
@[simp] theorem run_cons (e : Event) (es : List Event) (s : State) : run (e :: es) s = run es (turn e s) := rfl

theorem run_append (es fs : List Event) (s : State) : run (es ++ fs) s = run fs (run es s) := by
  induction es generalizing s with
  | nil => rfl
  | cons e es ih => exact ih (turn e s)

/-- Every run answers a next state, and this one. -/
theorem runEvents_eq_run (es : List Event) (s : State) : runEvents es s = .next (run es s) := by
  induction es generalizing s with
  | nil => rfl
  | cons e es ih => rw [runEvents, perform_eq_turn]; exact ih (turn e s)

/-- The operation an event performs is the one its word decodes to. -/
theorem operationOf_eq (e : Event) (s : State) :
    operationOf e s =
      match e with
      | .tick => some .tick
      | .reset _ => some .reset
      | .sample l => some (edgeOperation s.echoSync l)
      | .handle =>
        some (if s.edgeFlag then (if s.pol then .handleRise s.capt else .handleFall s.capt) else .hIdle)
      | .bus we a v => some (decodeBus we a v)
      | .foreground => s.fg.busRequest.map (fun q => decodeBus q.1 q.2.1 q.2.2) := by
  cases e with
  | tick => simp only [operationOf, present, decode_tickWord]
  | reset c => simp only [operationOf, present, decode_resetWord]
  | sample l => simp only [operationOf, present, decode_edgeWord]
  | handle => simp only [operationOf, present, decode_handoffWord]
  | bus we a v => simp only [operationOf, present, decode_busWord]
  | foreground =>
    simp only [operationOf, present, Foreground.request_eq]
    cases s.fg.busRequest <;> simp [decode_busWord]

/-- A state with another foreground agent. -/
def withFg (f : Foreground) (s : State) : State := { s with fg := f }

@[simp] theorem withFg_cnt (f : Foreground) (s : State) : (withFg f s).cnt = s.cnt := rfl
@[simp] theorem withFg_echoSync (f : Foreground) (s : State) : (withFg f s).echoSync = s.echoSync := rfl
@[simp] theorem withFg_capt (f : Foreground) (s : State) : (withFg f s).capt = s.capt := rfl
@[simp] theorem withFg_pol (f : Foreground) (s : State) : (withFg f s).pol = s.pol := rfl
@[simp] theorem withFg_edgeFlag (f : Foreground) (s : State) : (withFg f s).edgeFlag = s.edgeFlag := rfl
@[simp] theorem withFg_riseTs (f : Foreground) (s : State) : (withFg f s).riseTs = s.riseTs := rfl
@[simp] theorem withFg_dist (f : Foreground) (s : State) : (withFg f s).dist = s.dist := rfl
@[simp] theorem withFg_edgeState (f : Foreground) (s : State) : (withFg f s).edgeState = s.edgeState := rfl
@[simp] theorem withFg_seqErr (f : Foreground) (s : State) : (withFg f s).seqErr = s.seqErr := rfl
@[simp] theorem withFg_trig (f : Foreground) (s : State) : (withFg f s).trig = s.trig := rfl
@[simp] theorem withFg_fg (f : Foreground) (s : State) : (withFg f s).fg = f := rfl
@[simp] theorem withFg_readData (f : Foreground) (s : State) : (withFg f s).readData = s.readData := rfl
@[simp] theorem withFg_cntChoice (f : Foreground) (s : State) : (withFg f s).cntChoice = s.cntChoice := rfl
@[simp] theorem withFg_schedule (f : Foreground) (s : State) : (withFg f s).schedule = s.schedule := rfl
@[simp] theorem withFg_drawn (f : Foreground) (s : State) : (withFg f s).drawn = s.drawn := rfl

/-! The environment's inputs of a turn set no element of the block. -/

@[simp] theorem setInputs_cnt (e : Event) (s : State) : (setInputs e s).cnt = s.cnt := by cases e <;> rfl
@[simp] theorem setInputs_echoSync (e : Event) (s : State) : (setInputs e s).echoSync = s.echoSync := by cases e <;> rfl
@[simp] theorem setInputs_capt (e : Event) (s : State) : (setInputs e s).capt = s.capt := by cases e <;> rfl
@[simp] theorem setInputs_pol (e : Event) (s : State) : (setInputs e s).pol = s.pol := by cases e <;> rfl
@[simp] theorem setInputs_edgeFlag (e : Event) (s : State) : (setInputs e s).edgeFlag = s.edgeFlag := by cases e <;> rfl
@[simp] theorem setInputs_riseTs (e : Event) (s : State) : (setInputs e s).riseTs = s.riseTs := by cases e <;> rfl
@[simp] theorem setInputs_dist (e : Event) (s : State) : (setInputs e s).dist = s.dist := by cases e <;> rfl
@[simp] theorem setInputs_edgeState (e : Event) (s : State) : (setInputs e s).edgeState = s.edgeState := by cases e <;> rfl
@[simp] theorem setInputs_seqErr (e : Event) (s : State) : (setInputs e s).seqErr = s.seqErr := by cases e <;> rfl
@[simp] theorem setInputs_trig (e : Event) (s : State) : (setInputs e s).trig = s.trig := by cases e <;> rfl
@[simp] theorem setInputs_fg (e : Event) (s : State) : (setInputs e s).fg = s.fg := by cases e <;> rfl
@[simp] theorem setInputs_readData (e : Event) (s : State) : (setInputs e s).readData = s.readData := by cases e <;> rfl
@[simp] theorem setInputs_schedule (e : Event) (s : State) : (setInputs e s).schedule = s.schedule := by cases e <;> rfl
@[simp] theorem setInputs_drawn (e : Event) (s : State) : (setInputs e s).drawn = s.drawn := by cases e <;> rfl

/-- What a turn does to everything but the foreground agent is what its operation does. -/
theorem turn_of_operation {e : Event} {s : State} {i : Instr} (h : operationOf e s = some i) :
    ∃ f, turn e s = withFg f (afterOp i (setInputs e s)) := by
  rw [operationOf_eq] at h
  cases e with
  | tick => cases h; exact ⟨_, rfl⟩
  | reset c => cases h; exact ⟨s.fg, rfl⟩
  | sample l =>
    cases h
    have ht : turn (.sample l) s = afterOp (edgeOperation s.echoSync l) s := by
      cases hs : s.echoSync <;> cases l <;> simp only [edgeOperation, turn, hs, afterOp] <;> rfl
    exact ⟨_, ht⟩
  | handle =>
    cases h
    have ht : turn .handle s =
        afterOp (if s.edgeFlag then (if s.pol then .handleRise s.capt else .handleFall s.capt) else .hIdle) s := by
      cases hf : s.edgeFlag <;> cases hp : s.pol <;> simp only [turn, hf, hp] <;> rfl
    exact ⟨_, ht⟩
  | bus we a v =>
    cases h
    rw [setInputs, afterOp_decodeBus]
    exact ⟨_, rfl⟩
  | foreground =>
    cases hq : s.fg.busRequest with
    | none => simp [hq] at h
    | some q =>
      simp only [hq, Option.map_some, Option.some.injEq] at h
      subst h
      rw [setInputs, afterOp_decodeBus]
      exact ⟨s.fg.advance (afterBus q.1 q.2.1 q.2.2 s).readData, by simp [turn, hq, afterRequest, withFg]⟩

/-- A turn without an operation changes the foreground agent only. -/
theorem turn_of_no_operation {e : Event} {s : State} (h : operationOf e s = none) :
    ∃ f, turn e s = withFg f s := by
  rw [operationOf_eq] at h
  cases e with
  | foreground =>
    cases hq : s.fg.busRequest with
    | none => exact ⟨s.fg.advance s.readData, by simp [turn, hq, afterRequest, withFg]⟩
    | some q => simp [hq] at h
  | tick => cases h
  | reset c => cases h
  | sample l => cases h
  | handle => cases h
  | bus we a v => cases h

/-- A run's history, turn by turn. -/
theorem history_cons (e : Event) (es : List Event) (s : State) :
    history (e :: es) s =
      ((operationOf e s).toList.map (fun i => (e, s, i))) ++ history es (turn e s) := by
  rw [history, perform_eq_turn]
  cases operationOf e s <;> rfl

@[simp] theorem history_nil (s : State) : history [] s = [] := rfl

theorem operations_cons (e : Event) (es : List Event) (s : State) :
    operations (e :: es) s = (operationOf e s).toList ++ operations es (turn e s) := by
  rw [operations, history_cons, operations]
  cases operationOf e s <;> simp

@[simp] theorem operations_nil (s : State) : operations [] s = [] := rfl

theorem noEdgeLost_cons (e : Event) (es : List Event) (s : State) :
    noEdgeLost (e :: es) s = (!losesEdge e s && noEdgeLost es (turn e s)) := by
  rw [noEdgeLost, perform_eq_turn]

/-- A step with an event scheduled is that event's turn. -/
theorem step_scheduled {s : State} {e : Event} {es : List Event} (h : s.schedule = e :: es) :
    step s = .next (turn e { s with schedule := es }) := by
  simp only [step, dueEvent, takeEvent, h, perform_eq_turn]

/-- A step with nothing scheduled is the turn of a free event. -/
theorem step_unscheduled {s : State} (h : s.schedule = []) :
    step s = .next (turn (Config.nextEvent s.drawn) { s with drawn := s.drawn + 1 }) := by
  simp only [step, dueEvent, takeEvent, h, perform_eq_turn]

end Sys2Proof.Machine
end

