-- ==== Sys2Proof/Laws/Core.lean ====
section
/-! SUPPORT. The host's runs, step by step. -/

namespace Sys2Proof.Machine

theorem core_run_zero (s : State) : Sys2Proof.core.run 0 s = .next s := rfl

theorem core_run_succ {s t : State} (k : Nat) (h : step s = .next t) :
    Sys2Proof.core.run (k + 1) s = Sys2Proof.core.run k t := by
  have h' : Sys2Proof.core.step s = .next t := h
  simp only [Host.Core.run, h']

/-- A step with an event scheduled, on a state given by its schedule. -/
theorem step_withSchedule (e : Event) (es : List Event) (s : State) :
    step (withSchedule (e :: es) s) = .next (withSchedule es (turn e s)) := by
  rw [step_scheduled rfl, ← turn_withSchedule]
  rfl

end Sys2Proof.Machine
end

