-- ==== Sys2Proof/Laws/PerInstr.lean ====
section
/-! SUPPORT. Statements made once per operation (30_encoding.md R67): the canonical word of every operation is a well-formed word of its format. -/

namespace Sys2Proof.Laws

/-- The operation's canonical word fits its format and is not the word that is "no step". -/
def EncodeWf.Statement (i : Instr) : Prop := (encode i).wf = true

theorem EncodeWf.tick : EncodeWf.Statement .tick := by unfold EncodeWf.Statement; decide
theorem EncodeWf.reset : EncodeWf.Statement .reset := by unfold EncodeWf.Statement; decide
theorem EncodeWf.noEdgeLow : EncodeWf.Statement .noEdgeLow := by unfold EncodeWf.Statement; decide
theorem EncodeWf.edgeRise : EncodeWf.Statement .edgeRise := by unfold EncodeWf.Statement; decide
theorem EncodeWf.edgeFall : EncodeWf.Statement .edgeFall := by unfold EncodeWf.Statement; decide
theorem EncodeWf.noEdgeHigh : EncodeWf.Statement .noEdgeHigh := by unfold EncodeWf.Statement; decide
theorem EncodeWf.handleRise (capt : Word) : EncodeWf.Statement (.handleRise capt) := by
  have h : (encode (.handleRise capt)).fits = true := by
    rw [Machine.fits_iff]
    have h := capt.isLt
    show 0x30000 + capt.toNat < 2 ^ 18
    omega
  rw [EncodeWf.Statement, FmtWord.wf, h]
  rfl

theorem EncodeWf.handleFall (capt : Word) : EncodeWf.Statement (.handleFall capt) := by
  have h : (encode (.handleFall capt)).fits = true := by
    rw [Machine.fits_iff]
    have h := capt.isLt
    show 0x20000 + capt.toNat < 2 ^ 18
    omega
  rw [EncodeWf.Statement, FmtWord.wf, h]
  rfl

theorem EncodeWf.hIdle : EncodeWf.Statement .hIdle := by unfold EncodeWf.Statement; decide
theorem EncodeWf.rdCnt : EncodeWf.Statement .rdCnt := by unfold EncodeWf.Statement; decide
theorem EncodeWf.rdCapt : EncodeWf.Statement .rdCapt := by unfold EncodeWf.Statement; decide
theorem EncodeWf.rdStatus : EncodeWf.Statement .rdStatus := by unfold EncodeWf.Statement; decide
theorem EncodeWf.rdDist : EncodeWf.Statement .rdDist := by unfold EncodeWf.Statement; decide
theorem EncodeWf.rdTrig : EncodeWf.Statement .rdTrig := by unfold EncodeWf.Statement; decide
theorem EncodeWf.rdRsvd5 : EncodeWf.Statement .rdRsvd5 := by unfold EncodeWf.Statement; decide
theorem EncodeWf.rdRsvd6 : EncodeWf.Statement .rdRsvd6 := by unfold EncodeWf.Statement; decide
theorem EncodeWf.rdRsvd7 : EncodeWf.Statement .rdRsvd7 := by unfold EncodeWf.Statement; decide
theorem EncodeWf.wrIgn0 : EncodeWf.Statement .wrIgn0 := by unfold EncodeWf.Statement; decide
theorem EncodeWf.wrIgn1 : EncodeWf.Statement .wrIgn1 := by unfold EncodeWf.Statement; decide
theorem EncodeWf.wrStatusNop : EncodeWf.Statement .wrStatusNop := by unfold EncodeWf.Statement; decide
theorem EncodeWf.clrSeqErr : EncodeWf.Statement .clrSeqErr := by unfold EncodeWf.Statement; decide
theorem EncodeWf.wrIgn3 : EncodeWf.Statement .wrIgn3 := by unfold EncodeWf.Statement; decide
theorem EncodeWf.trigDeassert : EncodeWf.Statement .trigDeassert := by unfold EncodeWf.Statement; decide
theorem EncodeWf.trigAssert : EncodeWf.Statement .trigAssert := by unfold EncodeWf.Statement; decide
theorem EncodeWf.wrIgn5 : EncodeWf.Statement .wrIgn5 := by unfold EncodeWf.Statement; decide
theorem EncodeWf.wrIgn6 : EncodeWf.Statement .wrIgn6 := by unfold EncodeWf.Statement; decide
theorem EncodeWf.wrIgn7 : EncodeWf.Statement .wrIgn7 := by unfold EncodeWf.Statement; decide

end Sys2Proof.Laws
end

