-- ==== Sys2Proof/Laws/Runs.lean ====
section
/-! SUPPORT. What a stretch of a run with a quiet echo line does (Safety.lean, `quietAt`), and what the foreground agent's turn leaves alone. -/

namespace Sys2Proof.Machine

/-- A turn of the foreground agent changes `TRIG`, `SEQ_ERR`, the read data and the agent itself, nothing else. -/
theorem turn_foreground_frame (s : State) :
    (turn .foreground s).cnt = s.cnt ∧ (turn .foreground s).echoSync = s.echoSync ∧
    (turn .foreground s).capt = s.capt ∧ (turn .foreground s).pol = s.pol ∧
    (turn .foreground s).edgeFlag = s.edgeFlag ∧ (turn .foreground s).riseTs = s.riseTs ∧
    (turn .foreground s).dist = s.dist ∧ (turn .foreground s).edgeState = s.edgeState ∧
    ((turn .foreground s).seqErr = true → s.seqErr = true) := by
  cases h : s.fg.busRequest with
  | none => simp [turn, h, afterRequest]
  | some q =>
    rcases q with ⟨w, a, v⟩
    cases w <;> simp +contextual [turn, h, afterRequest, afterBus]

/-- What a quiet stretch keeps. -/
structure Quiet (s t : State) (n : Nat) : Prop where
  cnt : t.cnt.toNat = (s.cnt.toNat + n) % 65536
  echoSync : t.echoSync = s.echoSync
  capt : t.capt = s.capt
  pol : t.pol = s.pol
  edgeFlag : t.edgeFlag = s.edgeFlag
  riseTs : t.riseTs = s.riseTs
  dist : t.dist = s.dist
  edgeState : t.edgeState = s.edgeState
  seqErr : t.seqErr = true → s.seqErr = true

theorem Quiet.refl (s : State) : Quiet s s 0 where
  cnt := (Nat.mod_eq_of_lt s.cnt.isLt).symm
  echoSync := rfl
  capt := rfl
  pol := rfl
  edgeFlag := rfl
  riseTs := rfl
  dist := rfl
  edgeState := rfl
  seqErr := id

theorem Quiet.trans {s t u : State} {m n : Nat} (h : Quiet s t m) (k : Quiet t u n) : Quiet s u (m + n) where
  cnt := by rw [k.cnt, h.cnt]; omega
  echoSync := k.echoSync.trans h.echoSync
  capt := k.capt.trans h.capt
  pol := k.pol.trans h.pol
  edgeFlag := k.edgeFlag.trans h.edgeFlag
  riseTs := k.riseTs.trans h.riseTs
  dist := k.dist.trans h.dist
  edgeState := k.edgeState.trans h.edgeState
  seqErr := fun hu => h.seqErr (k.seqErr hu)

theorem turn_quiet {l : Bool} {e : Event} {s : State} (hl : s.echoSync = l) (hq : quietAt l e = true) :
    Quiet s (turn e s) (if e = .tick then 1 else 0) := by
  cases e with
  | tick => exact ⟨succ_toNat s.cnt, rfl, rfl, rfl, rfl, rfl, rfl, rfl, id⟩
  | reset c => cases hq
  | sample m =>
    have hm : m = s.echoSync := by simpa [quietAt, hl] using hq
    have ht : turn (.sample m) s = s := if_pos hm
    rw [ht]
    exact Quiet.refl s
  | handle => cases hq
  | bus we a v =>
    have ht : turn (.bus we a v) s = afterBus we a v s := rfl
    rw [ht]
    cases we <;> constructor <;> simp +contextual [afterBus, Nat.mod_eq_of_lt s.cnt.isLt]
  | foreground =>
    obtain ⟨h1, h2, h3, h4, h5, h6, h7, h8, h9⟩ := turn_foreground_frame s
    exact ⟨by rw [h1]; exact (Nat.mod_eq_of_lt s.cnt.isLt).symm, h2, h3, h4, h5, h6, h7, h8, h9⟩

theorem ticksIn_cons (e : Event) (es : List Event) : ticksIn (e :: es) = (if e = .tick then 1 else 0) + ticksIn es := by
  simp only [ticksIn, List.countP_cons, decide_eq_true_eq]
  omega

/-- A quiet stretch of a run counts its ticks and keeps the rest. -/
theorem run_quiet {l : Bool} {q : List Event} {s : State} (hl : s.echoSync = l) (hq : ∀ e ∈ q, quietAt l e = true) :
    Quiet s (run q s) (ticksIn q) := by
  induction q generalizing s with
  | nil => exact Quiet.refl s
  | cons e q ih =>
    have h1 := turn_quiet hl (hq e (by simp))
    rw [ticksIn_cons]
    exact h1.trans (ih (h1.echoSync.trans hl) (fun f hf => hq f (by simp [hf])))

/-- No bus operation handles an edge (30_encoding.md R64). -/
theorem handledPolarity_decodeBus (we : Bool) (a : Addr) (v : Word) : handledPolarity (decodeBus we a v) = none := by
  have h := isBusOperation_decodeBus we a v
  generalize decodeBus we a v = i at h
  cases i <;> first | rfl | exact absurd h (by simp [isBusOperation, encode])

/-- Every turn of the pipeline, by what it finds. -/
theorem turn_handle_idle {s : State} (h : s.edgeFlag = false) : turn .handle s = s := by simp [turn, h]

theorem turn_handle_rise {s : State} (h : s.edgeFlag = true) (hp : s.pol = true) :
    turn .handle s = afterOp (.handleRise s.capt) s := by simp [turn, h, hp]

theorem turn_handle_fall {s : State} (h : s.edgeFlag = true) (hp : s.pol = false) :
    turn .handle s = afterOp (.handleFall s.capt) s := by simp [turn, h, hp]

/-- A sample at a new level, with the latch free. -/
theorem turn_sample_free {l : Bool} {s : State} (hf : s.edgeFlag = false) (hl : s.echoSync = !l) :
    turn (.sample l) s = { s with capt := s.cnt, pol := l, edgeFlag := true, echoSync := l } := by
  cases l <;> simp [turn, hl, followLine, captureEvent, hf]

/-- A sample at a new level while an event is pending: the edge is lost. -/
theorem turn_sample_lost {l : Bool} {s : State} (hf : s.edgeFlag = true) (hl : s.echoSync = !l) :
    turn (.sample l) s = { s with echoSync := l } := by
  cases l <;> simp [turn, hl, followLine, captureEvent, hf]

/-! The foreground agent's turn, action by action (42_bus_and_trigger.md R113 to R116). -/

theorem turn_foreground_waiting {s : State} (h : s.fg.waiting ≠ 0) : turn .foreground s = s := by
  simp [turn, Foreground.busRequest, Foreground.advance, afterRequest, h]

theorem turn_foreground_write {s : State} {a : Addr} {v : Word} {rest : List Action} (hw : s.fg.waiting = 0)
    (h : s.fg.todo = .write a v :: rest) :
    turn .foreground s = withFg ⟨s.fg.prog, rest, 0, s.fg.d, s.fg.st, s.fg.emitted⟩ (memWrite a v s) := by
  simp [turn, Foreground.busRequest, Foreground.advance, afterRequest, afterBus, withFg, hw, h]

theorem turn_foreground_read {s : State} {a : Addr} {rest : List Action} (hw : s.fg.waiting = 0)
    (h : s.fg.todo = .read a .d :: rest) :
    turn .foreground s = withFg ⟨s.fg.prog, rest, 0, memRead a s, s.fg.st, s.fg.emitted⟩ (busRead a s) := by
  simp [turn, Foreground.busRequest, Foreground.advance, Foreground.latch, afterRequest, afterBus, withFg, hw, h]

theorem turn_foreground_delay {s : State} {n : Nat} {rest : List Action} (hw : s.fg.waiting = 0)
    (h : s.fg.todo = .delay n :: rest) :
    turn .foreground s = withFg ⟨s.fg.prog, rest, n, s.fg.d, s.fg.st, s.fg.emitted⟩ s := by
  simp [turn, Foreground.busRequest, Foreground.advance, afterRequest, withFg, hw, h]

theorem turn_foreground_emit {s : State} {rest : List Action} (hw : s.fg.waiting = 0) (h : s.fg.todo = .emit :: rest) :
    turn .foreground s = withFg ⟨s.fg.prog, rest, 0, s.fg.d, s.fg.st, s.fg.d :: s.fg.emitted⟩ s := by
  simp [turn, Foreground.busRequest, Foreground.advance, afterRequest, withFg, hw, h]

theorem todo_of_rest {f : Foreground} {a : Action} {r : List Action} (h : f.rest = a :: r) : f.todo = a :: r := by
  simp [Foreground.todo, h]

/-- A wait of at least what the delay owes ends it. -/
theorem run_tickN_waiting (n : Nat) (s : State) :
    (run (tickN n) s).fg = ⟨s.fg.prog, s.fg.rest, s.fg.waiting - n, s.fg.d, s.fg.st, s.fg.emitted⟩ := by
  induction n generalizing s with
  | zero => rfl
  | succ n ih =>
    have h : run (tickN (n + 1)) s = run (tickN n) (turn .tick s) := rfl
    rw [h, ih]
    have h1 : s.fg.waiting - (n + 1) = s.fg.waiting - 1 - n := by omega
    simp only [turn, Foreground.onTick, h1]

/-! The schedule of one iteration (Safety.lean, `OneCycle`): stretches in which the foreground agent does not act. -/

/-- The turns of the other agents leave the foreground agent as it is, but for a tick of its delay. -/
theorem turn_fg_of_ne_foreground {e : Event} (h : e ≠ .foreground) (s : State) :
    (turn e s).fg =
      ⟨s.fg.prog, s.fg.rest, s.fg.waiting - (if e = .tick then 1 else 0), s.fg.d, s.fg.st, s.fg.emitted⟩ := by
  cases e with
  | tick => rfl
  | reset c => rfl
  | sample l => simp only [turn]; split <;> simp
  | handle => cases hf : s.edgeFlag <;> cases hp : s.pol <;> simp [turn, hf, hp, afterOp]
  | bus we a v => simp [turn]
  | foreground => exact absurd rfl h

/-- A held turn: the foreground agent only counts. -/
theorem turn_fg_of_held {e : Event} {s : State} (h : e ≠ .foreground ∨ s.fg.waiting ≠ 0) :
    (turn e s).fg =
      ⟨s.fg.prog, s.fg.rest, s.fg.waiting - (if e = .tick then 1 else 0), s.fg.d, s.fg.st, s.fg.emitted⟩ := by
  by_cases he : e = .foreground
  · subst he
    rw [turn_foreground_waiting (h.resolve_left (fun h' => h' rfl))]
    rfl
  · exact turn_fg_of_ne_foreground he s

theorem turnsHeld_cons {n : Nat} {e : Event} {es : List Event} :
    turnsHeld n (e :: es) = true ↔
      (e ≠ .foreground ∨ n ≠ 0) ∧ turnsHeld (n - (if e = .tick then 1 else 0)) es = true := by
  rw [turnsHeld, Bool.and_eq_true]
  refine and_congr ?_ ?_
  · cases e <;> simp
  · by_cases h : e = .tick <;> simp [h]

/-- Without a turn of the foreground agent nothing has to wait. -/
theorem turnsHeld_of_no_foreground {es : List Event} (h : ∀ e ∈ es, e ≠ .foreground) (n : Nat) :
    turnsHeld n es = true := by
  induction es generalizing n with
  | nil => rfl
  | cons e es ih => exact turnsHeld_cons.2 ⟨Or.inl (h e (by simp)), ih (fun f hf => h f (by simp [hf])) _⟩

/-- A prefix of a held stretch is one. -/
theorem turnsHeld_prefix {n : Nat} {p es : List Event} (hp : p <+: es) (h : turnsHeld n es = true) :
    turnsHeld n p = true := by
  induction p generalizing n es with
  | nil => rfl
  | cons e p ih =>
    obtain ⟨r, rfl⟩ := hp
    rw [List.cons_append] at h
    have h' := turnsHeld_cons.1 h
    exact turnsHeld_cons.2 ⟨h'.1, ih (List.prefix_append p r) h'.2⟩

/-- Over a held stretch the foreground agent only counts. -/
theorem run_fg_of_held {es : List Event} {s : State} (h : turnsHeld s.fg.waiting es = true) :
    (run es s).fg = ⟨s.fg.prog, s.fg.rest, s.fg.waiting - ticksIn es, s.fg.d, s.fg.st, s.fg.emitted⟩ := by
  induction es generalizing s with
  | nil => rfl
  | cons e es ih =>
    have h' := turnsHeld_cons.1 h
    have ht := turn_fg_of_held h'.1
    have hr := ih (s := turn e s) (by rw [ht]; exact h'.2)
    rw [run_cons, hr, ht, ticksIn_cons, Nat.sub_add_eq]

/-- Over a held stretch without a reset in which no other bus master writes `TRIGR`, the trigger keeps its level. -/
theorem run_trig_of_held {es : List Event} {s : State} (h : turnsHeld s.fg.waiting es = true)
    (hr : ∀ e ∈ es, ∀ c, e ≠ .reset c) (hw : ∀ e ∈ es, writesTrigr e = false) : (run es s).trig = s.trig := by
  induction es generalizing s with
  | nil => rfl
  | cons e es ih =>
    have h' := turnsHeld_cons.1 h
    have ht := turn_fg_of_held h'.1
    have hn := ih (s := turn e s) (by rw [ht]; exact h'.2) (fun f hf => hr f (by simp [hf]))
      (fun f hf => hw f (by simp [hf]))
    have hwe := hw e (by simp)
    rw [run_cons, hn]
    cases e with
    | tick => rfl
    | reset c => exact absurd rfl (hr (.reset c) (by simp) c)
    | sample m => simp only [turn]; split <;> simp
    | handle => cases hf : s.edgeFlag <;> cases hp : s.pol <;> simp [turn, hf, hp, afterOp]
    | bus we a v => cases we <;> simp_all [turn, afterBus, writesTrigr]
    | foreground => rw [turn_foreground_waiting (h'.1.resolve_left (fun h0 => h0 rfl))]

/-- A calm event is no reset. -/
theorem ne_reset_of_calm {pending l : Bool} {e : Event} (h : calmAt pending l e = true) (c : Option Word) :
    e ≠ .reset c := by
  rintro rfl
  simp [calmAt, quietAt] at h

/-- A prefix of a run cut at one event ends before the event or after it. -/
theorem prefix_of_cut {p a b : List Event} {x : Event} (h : p <+: a ++ x :: b) :
    p <+: a ∨ ∃ q, q <+: b ∧ p = a ++ x :: q := by
  induction a generalizing p with
  | nil =>
    cases p with
    | nil => exact Or.inl List.nil_prefix
    | cons y q =>
      rw [List.nil_append, List.cons_prefix_cons] at h
      exact Or.inr ⟨q, h.2, by rw [h.1]; rfl⟩
  | cons z a ih =>
    cases p with
    | nil => exact Or.inl List.nil_prefix
    | cons y q =>
      rw [List.cons_append, List.cons_prefix_cons] at h
      rcases ih h.2 with h' | ⟨r, h1, h2⟩
      · exact Or.inl (List.cons_prefix_cons.2 ⟨h.1, h'⟩)
      · exact Or.inr ⟨r, h1, by rw [h.1, h2]; rfl⟩

/-- A turn at a standing line with nothing for the pipeline to do. -/
theorem turn_calm {l : Bool} {e : Event} {s : State} (hl : s.echoSync = l) (hq : calmAt s.edgeFlag l e = true) :
    Quiet s (turn e s) (if e = .tick then 1 else 0) := by
  rcases Bool.or_eq_true _ _ ▸ hq with h | h
  · exact turn_quiet hl h
  · simp only [Bool.and_eq_true, Bool.not_eq_true', beq_iff_eq] at h
    rw [h.2, turn_handle_idle h.1]
    exact Quiet.refl s

/-- A stretch at a standing line counts its ticks and keeps the rest. -/
theorem run_calm {l : Bool} {q : List Event} {s : State} (hl : s.echoSync = l)
    (hq : ∀ e ∈ q, calmAt s.edgeFlag l e = true) : Quiet s (run q s) (ticksIn q) := by
  induction q generalizing s with
  | nil => exact Quiet.refl s
  | cons e q ih =>
    have h1 := turn_calm hl (hq e (by simp))
    rw [ticksIn_cons]
    exact h1.trans (ih (h1.echoSync.trans hl) (fun f hf => by rw [h1.edgeFlag]; exact hq f (by simp [hf])))

theorem ticksIn_append (es fs : List Event) : ticksIn (es ++ fs) = ticksIn es + ticksIn fs := by
  simp only [ticksIn, List.countP_append]

theorem ticksIn_tickN (n : Nat) : ticksIn (tickN n) = n := by
  simp [ticksIn, tickN, List.countP_replicate]

theorem mem_tickN {n : Nat} {e : Event} (h : e ∈ tickN n) : e = .tick := List.eq_of_mem_replicate h

end Sys2Proof.Machine
end

