-- ==== Sys2Proof/Tests/Slice0.lean ====
section
/-! SUPPORT. Tests. Expected results are the vectors V1 to V8 of 95_test_vectors.md and the encodings of 30_encoding.md, not the model's answers;
and for every statement with hypotheses a witness that meets them. -/

namespace Sys2Proof.Tests

open Sys2Proof Sys2Proof.Machine

/-! ### Well-formedness: a word that each check refuses -/

theorem test_wf_refuses_tick_zero : FmtWord.wf ⟨.T, 0⟩ = false := by decide
theorem test_wf_refuses_reset_zero : FmtWord.wf ⟨.R, 0⟩ = false := by decide
theorem test_wf_refuses_wide_T : FmtWord.wf ⟨.T, 2⟩ = false := by decide
theorem test_wf_refuses_wide_R : FmtWord.wf ⟨.R, 2⟩ = false := by decide
theorem test_wf_refuses_wide_P : FmtWord.wf ⟨.P, 4⟩ = false := by decide
theorem test_wf_refuses_wide_H : FmtWord.wf ⟨.H, 0x40000⟩ = false := by decide
theorem test_wf_refuses_wide_B : FmtWord.wf ⟨.B, 0x100000⟩ = false := by decide
theorem test_wf_accepts_widest : FmtWord.wf ⟨.B, 0xFFFFF⟩ = true ∧ FmtWord.wf ⟨.H, 0x3FFFF⟩ = true := by decide
theorem test_decode_names_rejections :
    decode ⟨.T, 0⟩ = .error (.noStep .T) ∧ decode ⟨.R, 0⟩ = .error (.noStep .R) ∧ decode ⟨.P, 4⟩ = .error (.tooWide .P) := by
  decide

/-! ### Decoding, one written-out word per operation (R61 to R67; the words of V2, V4, V5, V6) -/

theorem test_decode_tick : decode ⟨.T, 0b1⟩ = .ok .tick := by decide
theorem test_decode_reset : decode ⟨.R, 0b1⟩ = .ok .reset := by decide
theorem test_decode_noEdgeLow : decode ⟨.P, 0b00⟩ = .ok .noEdgeLow := by decide
theorem test_decode_edgeRise : decode ⟨.P, 0b01⟩ = .ok .edgeRise := by decide
theorem test_decode_edgeFall : decode ⟨.P, 0b10⟩ = .ok .edgeFall := by decide
theorem test_decode_noEdgeHigh : decode ⟨.P, 0b11⟩ = .ok .noEdgeHigh := by decide
theorem test_decode_handleRise :
    decode ⟨.H, 0x30064⟩ = .ok (.handleRise 100) ∧ decode ⟨.H, 0b110101010101010101⟩ = .ok (.handleRise 0x5555) := by decide
theorem test_decode_handleFall :
    decode ⟨.H, 0x202A8⟩ = .ok (.handleFall 680) ∧ decode ⟨.H, 0b101111111111111110⟩ = .ok (.handleFall 0xFFFE) := by decide
theorem test_decode_hIdle : decode ⟨.H, 0x10064⟩ = .ok .hIdle ∧ decode ⟨.H, 0x002A8⟩ = .ok .hIdle := by decide
theorem test_decode_rdCnt : decode ⟨.B, 0b00000000000000000000⟩ = .ok .rdCnt := by decide
theorem test_decode_rdCapt : decode ⟨.B, 0b00010000000000000000⟩ = .ok .rdCapt := by decide
theorem test_decode_rdStatus : decode ⟨.B, 0b00100000000000000000⟩ = .ok .rdStatus := by decide
theorem test_decode_rdDist : decode ⟨.B, 0x30000⟩ = .ok .rdDist ∧ decode ⟨.B, 0x3BEEF⟩ = .ok .rdDist := by decide
theorem test_decode_rdTrig : decode ⟨.B, 0b01000000000000000000⟩ = .ok .rdTrig := by decide
theorem test_decode_rdRsvd5 : decode ⟨.B, 0b01010000000000000000⟩ = .ok .rdRsvd5 := by decide
theorem test_decode_rdRsvd6 : decode ⟨.B, 0b01100000000000000000⟩ = .ok .rdRsvd6 := by decide
theorem test_decode_rdRsvd7 : decode ⟨.B, 0b01110000000000000000⟩ = .ok .rdRsvd7 := by decide
theorem test_decode_wrIgn0 : decode ⟨.B, 0x8FFFF⟩ = .ok .wrIgn0 := by decide
theorem test_decode_wrIgn1 : decode ⟨.B, 0x9AAAA⟩ = .ok .wrIgn1 := by decide
theorem test_decode_wrStatusNop : decode ⟨.B, 0xA0017⟩ = .ok .wrStatusNop ∧ decode ⟨.B, 0xAFFF7⟩ = .ok .wrStatusNop := by decide
theorem test_decode_clrSeqErr : decode ⟨.B, 0xAFFFF⟩ = .ok .clrSeqErr ∧ decode ⟨.B, 0xA0008⟩ = .ok .clrSeqErr := by decide
theorem test_decode_wrIgn3 : decode ⟨.B, 0xB1234⟩ = .ok .wrIgn3 := by decide
theorem test_decode_trigDeassert : decode ⟨.B, 0xCFFFE⟩ = .ok .trigDeassert ∧ decode ⟨.B, 0xC0000⟩ = .ok .trigDeassert := by decide
theorem test_decode_trigAssert : decode ⟨.B, 0xCFFFF⟩ = .ok .trigAssert ∧ decode ⟨.B, 0xC0001⟩ = .ok .trigAssert := by decide
theorem test_decode_wrIgn5 : decode ⟨.B, 0xD0001⟩ = .ok .wrIgn5 := by decide
theorem test_decode_wrIgn6 : decode ⟨.B, 0xEFFFF⟩ = .ok .wrIgn6 := by decide
theorem test_decode_wrIgn7 : decode ⟨.B, 0xF8000⟩ = .ok .wrIgn7 := by decide

/-- No two rows of the opcode map overlap (R68). -/
theorem test_rows_do_not_overlap :
    opTable.Pairwise (fun r q => r.fmt ≠ q.fmt ∨ r.matchBits &&& q.mask ≠ q.matchBits &&& r.mask) := by decide

/-! ### One step each -/

/-- One field of the next state. -/
def look {α : Type} (r : Result) (f : State → α) : Option α :=
  match r with
  | .next s    => some (f s)
  | .fault _   => none
  | .refused _ => none

/-- A state by the columns of V2: counter, line, flag, polarity, capture. -/
def detector (cnt : Word) (echo flag pol : Bool) (capt : Word) : State :=
  { State.afterReset cnt with echoSync := echo, edgeFlag := flag, pol := pol, capt := capt }

/-- The columns of V2. -/
def detectorOf (s : State) : Word × Bool × Bool × Bool × Word := (s.cnt, s.echoSync, s.edgeFlag, s.pol, s.capt)

/-- A state by the columns of V4: flag, polarity, capture; rise timestamp, distance, edge state, error. -/
def pipeline (flag pol : Bool) (capt riseTs dist : Word) (e : EdgeState) (err : Bool) : State :=
  { State.afterReset 0 with
    edgeFlag := flag, pol := pol, capt := capt, riseTs := riseTs, dist := dist, edgeState := e, seqErr := err }

/-- The columns of V4. -/
def pipelineOf (s : State) : Bool × Word × Word × EdgeState × Bool := (s.edgeFlag, s.riseTs, s.dist, s.edgeState, s.seqErr)

/-- The state of V5. -/
def idle : State := { State.afterReset 41258 with capt := 680, dist := 10, riseTs := 100 }

/-- V1. -/
theorem test_tick_wraps : look (exec .tick (State.afterReset 65535)) State.cnt = some 0 := by decide
theorem test_tick_counts : look (perform .tick (State.afterReset 41257)) State.cnt = some 41258 := by decide

/-- The state before of V7 row 1: a fall pending. -/
def fallPending : State := { detector 600 false true false 600 with riseTs := 500, edgeState := .awaitingFall }

/-- V7 row 1. -/
theorem test_reset_discards :
    look (perform (.reset (some 77)) fallPending) detectorOf = some (77, false, false, false, 0) ∧
      look (perform (.reset (some 77)) fallPending) pipelineOf = some (false, 0, 0, .awaitingRise, false) := by decide
/-- V7 row 2. -/
theorem test_reset_lowers_trigger :
    look (exec .reset { State.afterReset 0 with trig := true, seqErr := true, dist := 1129 })
      (fun s => (trigOut s, s.seqErr, s.dist)) = some (false, false, 0) := by decide

/-- V2 row 1. -/
theorem test_noEdgeLow : look (perform (.sample false) (detector 100 false false false 0)) detectorOf =
    some (100, false, false, false, 0) := by decide
/-- V2 row 2. -/
theorem test_edgeRise_captures : look (perform (.sample true) (detector 100 false false false 0)) detectorOf =
    some (100, true, true, true, 100) := by decide
/-- V2 row 5. -/
theorem test_edgeRise_lost : look (perform (.sample true) (detector 1500 false true false 1300)) detectorOf =
    some (1500, true, true, false, 1300) := by decide
/-- V2 row 4. -/
theorem test_edgeFall_captures : look (perform (.sample false) (detector 680 true false true 100)) detectorOf =
    some (680, false, true, false, 680) := by decide
/-- V2 row 6. -/
theorem test_edgeFall_lost : look (perform (.sample false) (detector 5020 true true true 5000)) detectorOf =
    some (5020, false, true, true, 5000) := by decide
/-- V2 row 9. -/
theorem test_noEdgeHigh : look (perform (.sample true) (detector 1500 true true false 1300)) detectorOf =
    some (1500, true, true, false, 1300) := by decide

/-- V4 row 1. -/
theorem test_handleRise_normal : look (perform .handle (pipeline true true 100 0 0 .awaitingRise false)) pipelineOf =
    some (false, 100, 0, .awaitingFall, false) := by decide
/-- V4 row 3. -/
theorem test_handleRise_second : look (exec (.handleRise 5050) (pipeline true true 5050 5000 0 .awaitingFall false)) pipelineOf =
    some (false, 5050, 0, .awaitingFall, true) := by decide
/-- V4 row 4. -/
theorem test_handleFall_unawaited : look (perform .handle (pipeline true false 1600 1000 5 .awaitingRise false)) pipelineOf =
    some (false, 1000, 10, .awaitingRise, true) := by decide
/-- V4 row 9. -/
theorem test_handleFall_wraps : look (exec (.handleFall 9) (pipeline true false 9 10 0 .awaitingFall false)) pipelineOf =
    some (false, 10, 1129, .awaitingRise, false) := by decide
/-- V4 row 10. -/
theorem test_hIdle : look (perform .handle (pipeline false true 100 100 0 .awaitingFall false)) pipelineOf =
    some (false, 100, 0, .awaitingFall, false) := by decide

/-- V5. -/
theorem test_rdCnt : look (exec .rdCnt idle) State.readData = some (some 0xA12A) := by decide
theorem test_rdCapt : look (exec .rdCapt idle) State.readData = some (some 0x02A8) := by decide
/-- V5, the STATUS table: 0x0016 and 0x000D. -/
theorem test_rdStatus_bits :
    look (exec .rdStatus { pipeline false true 7 7 0 .awaitingFall false with echoSync := true }) State.readData = some (some 0x0016) := by decide
theorem test_rdStatus_error :
    look (exec .rdStatus (pipeline true false 7 7 0 .awaitingFall true)) State.readData = some (some 0x000D) := by decide
theorem test_rdDist : look (exec .rdDist idle) State.readData = some (some 0x000A) := by decide
theorem test_rdTrig : look (exec .rdTrig { idle with trig := true }) State.readData = some (some 0x0001) := by decide
theorem test_rdRsvd5 : look (exec .rdRsvd5 idle) State.readData = some (some 0x0000) := by decide
theorem test_rdRsvd6 : look (exec .rdRsvd6 idle) State.readData = some (some 0x0000) := by decide
theorem test_rdRsvd7 : look (exec .rdRsvd7 idle) State.readData = some (some 0x0000) := by decide

/-- V6 row 2. -/
theorem test_wrIgn0 : look (perform (wr addrCnt 0xFFFF) idle) (fun s => memRead addrCnt s) = some 41258 := by decide
/-- V6 row 3. -/
theorem test_wrIgn1 : look (perform (wr addrCapt 0xAAAA) idle) (fun s => memRead addrCapt s) = some 680 := by decide
/-- V6, the note below the table: 0xAFFF7 leaves 0x0013. -/
theorem test_wrStatusNop :
    look (perform (wr addrStatus 0xFFF7) (detector 100 true true true 100)) (fun s => memRead addrStatus s) = some 0x0013 := by decide
theorem test_clrSeqErr :
    look (perform clrErr (pipeline false false 0 0 0 .awaitingRise true)) (fun s => memRead addrStatus s) = some 0x0000 := by decide
/-- V6 row 1. -/
theorem test_wrIgn3 : look (perform (wr addrDist 0x1234) idle) (fun s => memRead addrDist s) = some 10 := by decide
/-- V6 rows 8, 9. -/
theorem test_trigDeassert : look (perform (wr addrTrigr 0xFFFE) { idle with trig := true }) (fun s => memRead addrTrigr s) = some 0x0000 := by decide
theorem test_trigAssert : look (perform (wr addrTrigr 0xFFFF) idle) (fun s => (memRead addrTrigr s, trigOut s)) = some (0x0001, true) := by decide
/-- V6 rows 5 to 7. -/
theorem test_wrIgn5 : look (perform (wr 5 1) idle) (fun s => memRead 5 s) = some 0x0000 := by decide
theorem test_wrIgn6 : look (perform (wr 6 0xFFFF) idle) (fun s => memRead 6 s) = some 0x0000 := by decide
theorem test_wrIgn7 : look (perform (wr 7 0x8000) idle) (fun s => memRead 7 s) = some 0x0000 := by decide

/-- V3: wrap, remainder, largest result. -/
theorem test_distance :
    computeDistance 65000 100 = 10 ∧ computeDistance 65500 44 = 1 ∧ computeDistance 100 99 = 1129 ∧ computeDistance 0 57 = 0 ∧
      computeDistance 32768 0 = 564 := by decide

/-- The host's interface: a word of the table is the next step's operation (V6 row 9, V2 row 2, V4 row 2). -/
theorem test_withFetchWord_bus :
    look (step (State.withFetchWord (State.afterReset 0) 20 0xCFFFF)) trigOut = some true := by decide
theorem test_withFetchWord_sample :
    look (step (State.withFetchWord (State.afterReset 100) 2 0b01)) detectorOf = some (100, true, true, true, 100) := by decide
theorem test_withFetchWord_handle :
    look (step (State.withFetchWord (State.afterReset 0) 18 0x202A8)) pipelineOf = some (false, 0, 11, .awaitingRise, true) := by decide

/-! ### Witnesses: for each statement with hypotheses, a concrete state and operands that meet them -/

/-- Two states that the statements' premises ask for: latch free and line low, latch free and line high. -/
def low : State := State.afterReset 100
def high : State := detector 680 true false true 100
/-- A rise pending; a fall pending. -/
def riseHeld : State := detector 110 true true true 100
def fallHeld : State := { detector 690 false true false 680 with edgeState := .awaitingFall, riseTs := 100 }

theorem witness_ResetLeavesTheStatedState : ({ low with cntChoice := some 77 } : State).cntChoice = some 77 := rfl

theorem witness_EveryStepKeepsTheInvariant :
    ∃ s t : State, s.Inv ∧ step s = .next t ∧ t.cnt ≠ s.cnt := by
  refine ⟨{ State.afterReset 65535 with schedule := [.tick] }, _, ⟨by decide, ⟨Or.inl rfl, List.suffix_refl _⟩, by decide, ?_⟩, rfl, by decide⟩
  intro v hv
  cases hv

theorem witness_TickCountsModulo65536 :
    (State.afterReset 65535).cnt = 65535 ∧ exec .tick low = .next { low with cnt := 101 } ∧
      ({ low with cnt := 101 } : State).cnt ≠ low.cnt := ⟨rfl, rfl, by decide⟩

theorem witness_SampleSelectsTheEdgeOperation :
    .reset ∉ operations [.sample true, .tick, .sample false] low := by decide

theorem witness_EdgeRiseCapturesOrIsLost :
    low.echoSync = false ∧ low.edgeFlag = false ∧ fallHeld.echoSync = false ∧ fallHeld.edgeFlag = true := by decide

theorem witness_EdgeFallCapturesOrIsLost :
    high.echoSync = true ∧ high.edgeFlag = false ∧ riseHeld.echoSync = true ∧ riseHeld.edgeFlag = true := by decide

theorem witness_SamplesWithoutAnEdgeChangeNothing : low.echoSync = false ∧ high.echoSync = true := by decide

theorem witness_PendingEventIsHeld :
    riseHeld.edgeFlag = true ∧ ∀ e ∈ [Event.sample false, .tick, clrErr], e ≠ .handle ∧ ∀ c, e ≠ .reset c := by
  refine ⟨rfl, fun e he => ?_⟩
  fin_cases he <;> exact ⟨by decide, fun c h => by cases h⟩

theorem witness_CaptureRecordsCounterAndPolarity :
    low.edgeFlag = false ∧ look (perform (.sample true) low) State.edgeFlag = some true := by decide

theorem witness_HandleRunsExactlyWhilePending :
    (riseHeld.edgeFlag = true ∧ riseHeld.pol = true) ∧ (fallHeld.edgeFlag = true ∧ fallHeld.pol = false) ∧ low.edgeFlag = false := by
  decide

theorem witness_EdgeMachineFollowsItsTable :
    low.edgeState = .awaitingRise ∧ fallHeld.edgeState = .awaitingFall ∧
      exec .edgeFall high = .next (followLine false (captureEvent false high)) ∧ handledPolarity .edgeFall = none ∧
      Instr.edgeFall ≠ .reset := ⟨rfl, rfl, rfl, rfl, by decide⟩

theorem witness_SubtractionIsModulo65536 :
    (100 : Word).toNat ≤ (680 : Word).toNat ∧ (44 : Word).toNat < (65500 : Word).toNat ∧ (7 : Word).toNat ≤ (7 : Word).toNat := by
  decide

theorem witness_DivisionIsTheFloor : 58 * 1129 ≤ (65535 : Word).toNat ∧ (65535 : Word).toNat ≤ 58 * 1129 + 57 := by decide

theorem witness_DistanceIsMonotoneAndShiftInvariant : (sub16 44 65500).toNat ≤ (sub16 680 100).toNat := by decide

theorem witness_PulseIsMeasuredInTicks :
    low.edgeFlag = false ∧ low.echoSync = false ∧ low.edgeState = .awaitingRise ∧
      (∀ e ∈ [Event.tick, .foreground, rd addrStatus, .sample true], quietAt true e = true) ∧
      (∀ e ∈ [Event.tick, clrErr, .sample false], quietAt false e = true) := by decide

theorem witness_TwoLostEdgesGoUnreported :
    low.edgeFlag = false ∧ low.echoSync = false ∧ low.edgeState = .awaitingRise ∧
      (∀ e ∈ [Event.tick, .sample true], quietAt true e = true) ∧ (∀ e ∈ [Event.sample false, .tick], quietAt false e = true) := by
  decide

theorem witness_OneLostFallIsReported :
    low.edgeFlag = false ∧ low.echoSync = false ∧
      (∀ e ∈ [Event.tick, .tick], quietAt true e = true) ∧ (∀ e ∈ [Event.tick], quietAt false e = true) := by decide

theorem justReset_low : low.JustReset := by unfold State.JustReset; decide

theorem witness_NoLostEdgeNoSequenceError :
    low.JustReset ∧ noEdgeLost [.sample true, .handle, .tick, .sample false, .handle] low = true :=
  ⟨justReset_low, by decide⟩

theorem witness_FirstHandledEdgeAfterResetIsARise :
    low.JustReset ∧ (operations [.sample true, .handle] low).filterMap handledPolarity = [true] := ⟨justReset_low, by decide⟩

theorem witness_EchoHighAtResetIsCaptured :
    low.JustReset ∧ ∀ e ∈ [Event.tick, .sample false], quietAt false e = true := ⟨justReset_low, by decide⟩

theorem running_low : low.fg.Running := ⟨Or.inl rfl, List.suffix_refl _⟩

theorem witness_CounterResetValueAffectsNoReading : low.JustReset ∧ low.fg.Running := ⟨justReset_low, running_low⟩

theorem witness_RegisterSpaceWrites :
    (0x0008 : Word).getLsbD 3 = true ∧ (0xFFF7 : Word).getLsbD 3 = false ∧ ((3 : Addr) ≠ 4 ∧ (3 : Addr) ≠ 2) ∧ (2 : Addr) ≠ 4 := by
  decide

theorem witness_StatusAndTrigrLayout : 5 ≤ 5 ∧ 1 ≤ 1 ∧ (31 : Word).toNat < 32 := by decide

theorem witness_IgnoredDataBitsHaveNoEffect :
    ((0xFFFF : Word).getLsbD 0 = (0x0001 : Word).getLsbD 0) ∧ ((0x0017 : Word).getLsbD 3 = (0x0000 : Word).getLsbD 3) ∧
      ((5 : Addr) = 5 ∨ (5 : Addr) = 6 ∨ (5 : Addr) = 7) ∧ ((0x0017 : Word) ≠ 0x0000) := by decide

/-- One next state for each clause of the ownership statement. -/
theorem witness_EachElementHasItsWriters :
    look (exec .tick low) State.cnt ≠ some low.cnt ∧
    look (exec .edgeRise low) State.echoSync ≠ some low.echoSync ∧
    look (exec .edgeRise low) State.capt ≠ some low.capt ∧
    (low.edgeFlag = false ∧ look (exec .edgeRise low) State.edgeFlag = some true) ∧
    (riseHeld.edgeFlag = true ∧ look (exec (.handleRise 100) riseHeld) State.edgeFlag = some false) ∧
    look (exec (.handleRise 100) riseHeld) State.riseTs ≠ some riseHeld.riseTs ∧
    look (exec (.handleFall 680) fallHeld) State.dist ≠ some fallHeld.dist ∧
    look (exec (.handleRise 100) riseHeld) State.edgeState ≠ some riseHeld.edgeState ∧
    (fallHeld.seqErr = false ∧ look (exec (.handleRise 100) fallHeld) State.seqErr = some true) ∧
    look (exec .clrSeqErr { low with seqErr := true }) State.seqErr = some false ∧
    look (exec .trigAssert low) State.trig ≠ some low.trig := by decide

theorem witness_DistanceIsKeptUntilAFallIsHandled :
    ∀ i ∈ operations [.sample true, .handle, wr addrDist 0x1234, rd addrDist] low, writesDist i = false := by decide

theorem witness_EveryStepCompletes : FmtWord.wf ⟨.B, 0xC0001⟩ = true ∧ FmtWord.wf ⟨.T, 1⟩ = true := by decide

theorem witness_StepRunsTheDecodedOperation :
    (present (dueEvent { low with schedule := [.bus true 4 1] }) (takeEvent { low with schedule := [.bus true 4 1] }) =
        some ⟨.B, 0xC0001⟩ ∧ decode ⟨.B, 0xC0001⟩ = .ok .trigAssert) ∧
      present (dueEvent { low with schedule := [.foreground], fg := { low.fg with waiting := 3 } })
        (takeEvent { low with schedule := [.foreground], fg := { low.fg with waiting := 3 } }) = none := by decide

theorem witness_PresentedTableWordIsRun :
    decodeTableWord 20 0xC0001 = some .trigAssert ∧ decodeTableWord 18 0x202A8 = some (.handleFall 680) ∧
      decodeTableWord 2 0b01 = some .edgeRise ∧ decodeTableWord 1 1 = some .tick ∧ decodeTableWord 24 0xFFFFF = some .wrIgn7 := by
  decide

theorem witness_DecodedWordsAreCanonicalUpToIgnoredBits : decode ⟨.B, 0x3BEEF⟩ = .ok .rdDist := by decide

theorem witness_DecoderAgreesWithTheOpcodeMap :
    FmtWord.wf ⟨.H, 0x3FFFF⟩ = true ∧ FmtWord.fits ⟨.P, 4⟩ = false ∧ (FmtWord.fits ⟨.R, 0⟩ = true ∧ FmtWord.isStep ⟨.R, 0⟩ = false) := by
  decide

/-- Every agent acts on one clock edge; the bus writes `STATUS` with bit 3 set. -/
def allPorts : Ports := ⟨false, true, true, true, true, true, addrStatus, 0x0008, true⟩

theorem witness_ClockEdgeEqualsRegisterTransfer : allPorts.rst = false := rfl

theorem witness_ClockEdgeFollowsTheFixedOrder :
    { allPorts with rst := true }.rst = true ∧
    (allPorts.rst = false ∧ allPorts.sampled = true ∧ allPorts.tick = true ∧ low.edgeFlag = false ∧ allPorts.echoIn ≠ low.echoSync) ∧
    (allPorts.commit = true ∧ fallHeld.edgeFlag = true) ∧
    (allPorts.busSel = true ∧ allPorts.busWe = true ∧ allPorts.busAddr = addrStatus ∧ allPorts.busWdata.getLsbD 3 = true ∧
      { fallHeld with pol := true }.edgeFlag = true ∧ unawaited true fallHeld.edgeState = true) ∧
    ({ allPorts with busWe := false }.busSel = true ∧ { allPorts with busWe := false }.busWe = false) := by decide

/-- The foreground agent about to do the given actions. -/
def about (as : List Sys2Proof.Action) (st : Word) : State := { low with fg := { low.fg with rest := as, st := st } }

theorem witness_ForegroundActionsDoWhatTheyName :
    low.fg.waiting = 0 ∧
    (about [.write 4 1, .emit] 0).fg.todo = .write 4 1 :: [.emit] ∧ (about [.read 3 .d] 0).fg.todo = .read 3 .d :: [] ∧
    (about [.read 2 .s] 0).fg.todo = .read 2 .s :: [] ∧ (about [.delay 10] 0).fg.todo = .delay 10 :: [] ∧
    (about [.emit] 0).fg.todo = .emit :: [] ∧
    ((about [.clearOrEmit] 8).fg.todo = .clearOrEmit :: [] ∧ (about [.clearOrEmit] 8).fg.st.getLsbD 3 = true) ∧
    ((about [.clearOrEmit] 7).fg.todo = .clearOrEmit :: [] ∧ (about [.clearOrEmit] 7).fg.st.getLsbD 3 = false) := by decide

theorem witness_DelayHoldsTheForegroundAgent :
    ticksIn [.tick, .foreground, .tick] < ({ low with fg := { low.fg with waiting := 3 } } : State).fg.waiting := by decide

theorem witness_RunCyclePerformsItsThreeOperations : low.fg.prog = runCycle ∧ low.fg.rest = runCycle := ⟨rfl, rfl⟩

theorem held_tickN (m n : Nat) : turnsHeld m (tickN n) = true :=
  turnsHeld_of_no_foreground (fun e he => by rw [mem_tickN he]; decide) m

/-- The wait of program P1: 90 ticks, the rise, handled after 5 of its 580 ticks, the fall, handled 3 ticks later, and the rest, with samples and
idle turns in between. -/
def echoWait : List Event :=
  echoIn (.foreground :: .handle :: tickN 90) (.sample true :: tickN 5) (rd addrStatus :: tickN 575) (tickN 3)
    (.sample false :: .handle :: tickN 499327)

theorem held_echoWait : turnsHeld 500000 echoWait = true := by
  simp only [echoWait, echoIn, List.cons_append]
  refine turnsHeld_cons.2 ⟨Or.inr (by decide), turnsHeld_of_no_foreground (fun e he => ?_) _⟩
  have h : ∀ n, e ∈ tickN n → e ≠ .foreground := fun n hn => by rw [mem_tickN hn]; decide
  simp only [List.mem_append, List.mem_cons, or_assoc] at he
  rcases he with h1 | h1 | h1 | h1 | h1 | h1 | h1 | h1 | h1 | h1 | h1 | h1 | h1 | h1
  all_goals first | exact h _ h1 | (rw [h1]; decide)

theorem ticksIn_echoWait : ticksIn echoWait = 500000 := by
  simp only [echoWait, echoIn, ticksIn_append, ticksIn_cons, ticksIn_tickN]
  decide

theorem calm_tickN (p l : Bool) (n : Nat) : ∀ e ∈ tickN n, calmAt p l e = true := fun e he => by
  rw [mem_tickN he]; rfl

theorem witness_CycleWithEchoEmitsItsDistance :
    low.fg.todo = runCycle ∧ low.fg.waiting = 0 ∧ low.edgeFlag = false ∧ low.echoSync = false ∧
      OneCycle [.handle] (.foreground :: tickN 10) [] echoWait [.tick] ∧
      (∀ e ∈ [Event.handle] ++ (.foreground :: tickN 10) ++ [] ++ (.foreground :: .handle :: tickN 90) ++
        (.sample false :: .handle :: tickN 499327) ++ [.tick], calmAt false false e = true) ∧
      (∀ e ∈ Event.sample true :: tickN 5, quietAt true e = true) ∧
      (∀ e ∈ rd addrStatus :: tickN 575, calmAt false true e = true) ∧ (∀ e ∈ tickN 3, quietAt false e = true) ∧
      ticksIn (.sample true :: tickN 5) + ticksIn (rd addrStatus :: tickN 575) ≤ 65535 := by
  refine ⟨rfl, rfl, rfl, rfl, ⟨rfl, turnsHeld_cons.2 ⟨Or.inr (by decide), held_tickN _ _⟩, rfl, held_echoWait, rfl, ?_, ?_⟩,
    ?_, ?_, ?_, fun e he => by rw [mem_tickN he]; rfl, ?_⟩
  · rw [ticksIn_cons, ticksIn_tickN]; decide
  · rw [ticksIn_echoWait]; decide
  · intro e he
    have h : ∀ n, e ∈ tickN n → calmAt false false e = true := fun n hn => calm_tickN _ _ n e hn
    simp only [List.mem_append, List.mem_cons, List.not_mem_nil, or_false, or_assoc] at he
    rcases he with h1 | h1 | h1 | h1 | h1 | h1 | h1 | h1 | h1 | h1
    all_goals first | exact h _ h1 | (rw [h1]; rfl)
  · intro e he
    rcases List.mem_cons.1 he with h1 | h1
    · rw [h1]; rfl
    · rw [mem_tickN h1]; rfl
  · intro e he
    rcases List.mem_cons.1 he with h1 | h1
    · rw [h1]; rfl
    · rw [mem_tickN h1]; rfl
  · rw [ticksIn_cons, ticksIn_cons, ticksIn_tickN, ticksIn_tickN]; decide

/-- Program P5's iteration, with a sample, an idle turn of the pipeline and a read of another master in the wait; nobody else writes `TRIGR`. -/
theorem witness_CycleWithoutEchoEmitsTheOldReading :
    low.fg.todo = runCycle ∧ low.fg.waiting = 0 ∧
      OneCycle [] (tickN 10) [] (.foreground :: .sample false :: .handle :: rd addrStatus :: tickN 500000) [] ∧
      (∀ e ∈ [] ++ tickN 10 ++ [] ++ (.foreground :: .sample false :: .handle :: rd addrStatus :: tickN 500000) ++ [],
        calmAt low.edgeFlag low.echoSync e = true ∧ writesTrigr e = false) ∧
      ([] : List Event) <+: [] ++ .foreground :: tickN 10 := by
  refine ⟨rfl, rfl, ⟨rfl, held_tickN _ _, rfl, ?_, rfl, ?_, ?_⟩, ?_, List.nil_prefix⟩
  · refine turnsHeld_cons.2 ⟨Or.inr (by decide), turnsHeld_of_no_foreground (fun e he => ?_) _⟩
    simp only [List.mem_cons] at he
    rcases he with h1 | h1 | h1 | h1
    all_goals first | (rw [mem_tickN h1]; decide) | (rw [h1]; decide)
  · rw [ticksIn_tickN]; decide
  · simp only [ticksIn_cons, ticksIn_tickN]; decide
  · intro e he
    simp only [List.mem_append, List.mem_cons, List.not_mem_nil, or_false, false_or] at he
    rcases he with h1 | h1 | h1 | h1 | h1 | h1
    all_goals first | (rw [mem_tickN h1]; exact ⟨rfl, rfl⟩) | (rw [h1]; exact ⟨rfl, rfl⟩)

/-- The counter, the pipeline and the foreground agent take turns, and nobody else. -/
def turns (n : Nat) : Event := if n % 3 = 0 then .tick else if n % 3 = 1 then .handle else .foreground

/-- The execution of those turns, from a rise pending. -/
def turnStates (n : Nat) : State :=
  match n with
  | 0     => riseHeld
  | n + 1 => turn (turns n) (turnStates n)

theorem turns_isExecution : IsExecution turns turnStates := fun n => perform_eq_turn (turns n) (turnStates n)

theorem turns_tickFair : TickFair turns := fun n => ⟨3 * n, by omega, by simp [turns]⟩

theorem turns_handleFair : HandleFair turns turnStates := fun n _ => ⟨3 * n + 1, by omega, by simp [turns, Nat.add_mod]⟩

theorem turns_foregroundFair : ForegroundFair turns := fun n => ⟨3 * n + 2, by omega, by simp [turns, Nat.add_mod]⟩

theorem witness_EdgeFlagDoesNotStaySetForever :
    IsExecution turns turnStates ∧ HandleFair turns turnStates ∧ (turnStates 0).edgeFlag = true :=
  ⟨turns_isExecution, turns_handleFair, rfl⟩

theorem witness_PendingEdgeIsEventuallyHandled :
    IsExecution turns turnStates ∧ HandleFair turns turnStates ∧ (turnStates 0).edgeFlag = true ∧
      ∀ m c, 0 ≤ m → turns m ≠ .reset c := by
  refine ⟨turns_isExecution, turns_handleFair, rfl, fun m c _ => ?_⟩
  simp only [turns]
  split
  · simp
  · split <;> simp

theorem witness_DelayEventuallyEnds : IsExecution turns turnStates ∧ TickFair turns := ⟨turns_isExecution, turns_tickFair⟩

theorem witness_CycleNeverBlocks :
    IsExecution turns turnStates ∧ TickFair turns ∧ ForegroundFair turns ∧ (turnStates 0).fg.prog = runCycle ∧
      (turnStates 0).fg.rest <:+ runCycle :=
  ⟨turns_isExecution, turns_tickFair, turns_foregroundFair, rfl, List.suffix_refl _⟩

end Sys2Proof.Tests
end

section
/-! SUPPORT. The kinds of a turn, and executions as sequences of turns (00_scope.md R13, R14). -/

namespace Sys2Proof.Machine

/-- Every turn finds the line and the pipeline calm, or is a reset, an edge, or the handling of a pending event. -/
theorem turn_kind (e : Event) (s : State) :
    calmAt s.edgeFlag s.echoSync e = true ∨ (∃ c, e = .reset c) ∨ e = .sample (!s.echoSync) ∨
      (e = .handle ∧ s.edgeFlag = true) := by
  cases e with
  | tick => exact .inl rfl
  | reset c => exact .inr (.inl ⟨c, rfl⟩)
  | sample l => cases l <;> cases h : s.echoSync <;> simp [calmAt, quietAt]
  | handle => cases h : s.edgeFlag <;> simp [calmAt, quietAt]
  | bus we a v => exact .inl rfl
  | foreground => exact .inl rfl

/-- After the pipeline's turn no event is pending (41_distance_pipeline.md R90). -/
theorem turn_handle_edgeFlag (s : State) : (turn .handle s).edgeFlag = false := by
  cases hf : s.edgeFlag with
  | false => rw [turn_handle_idle hf, hf]
  | true =>
    cases hp : s.pol with
    | false => rw [turn_handle_fall hf hp]; rfl
    | true => rw [turn_handle_rise hf hp]; rfl

/-- The handoff word of `s` stands unchanged in `t` (10_state.md R26). -/
structure SameHandoff (s t : State) : Prop where
  edgeFlag : t.edgeFlag = s.edgeFlag
  pol : t.pol = s.pol
  capt : t.capt = s.capt

/-- While an event is pending, only the pipeline and a reset change the handoff word (40_counter_and_capture.md R87). -/
theorem turn_sameHandoff {e : Event} {s : State} (hf : s.edgeFlag = true) (hh : e ≠ .handle)
    (hr : ∀ c, e ≠ .reset c) : SameHandoff s (turn e s) := by
  rcases turn_kind e s with hq | ⟨c, he⟩ | he | ⟨he, -⟩
  · have q := turn_calm rfl hq
    exact ⟨q.edgeFlag, q.pol, q.capt⟩
  · exact absurd he (hr c)
  · rw [he, turn_sample_lost hf (Bool.not_not _).symm]
    exact ⟨rfl, rfl, rfl⟩
  · exact absurd he hh

theorem IsExecution.succ {ev : Nat → Event} {st : Nat → State} (h : IsExecution ev st) (n : Nat) :
    st (n + 1) = turn (ev n) (st n) := by
  have h1 := h n
  rw [perform_eq_turn] at h1
  exact (Host.Outcome.next.inj h1).symm

/-- A pending event is held over every stretch of an execution without a turn of the pipeline or a reset. -/
theorem IsExecution.sameHandoff {ev : Nat → Event} {st : Nat → State} (h : IsExecution ev st) {n m : Nat}
    (hnm : n ≤ m) (hf : (st n).edgeFlag = true) (hh : ∀ j, n ≤ j → j < m → ev j ≠ .handle)
    (hr : ∀ j c, n ≤ j → ev j ≠ .reset c) : SameHandoff (st n) (st m) := by
  induction m, hnm using Nat.le_induction with
  | base => exact ⟨rfl, rfl, rfl⟩
  | succ m hnm ih =>
    have hm := ih (fun j h1 h2 => hh j h1 (Nat.lt_succ_of_lt h2))
    have ht := turn_sameHandoff (hm.edgeFlag.trans hf) (hh m hnm m.lt_succ_self) (fun c => hr m c hnm)
    rw [← h.succ m] at ht
    exact ⟨ht.edgeFlag.trans hm.edgeFlag, ht.pol.trans hm.pol, ht.capt.trans hm.capt⟩

/-- A delay that does not end only counts ticks: the agent takes no action while it waits (42_bus_and_trigger.md R114). -/
theorem IsExecution.waiting_succ {ev : Nat → Event} {st : Nat → State} (h : IsExecution ev st) {m : Nat}
    (hw : (st m).fg.waiting ≠ 0) :
    (st (m + 1)).fg.waiting = (st m).fg.waiting - (if ev m = .tick then 1 else 0) := by
  rw [h.succ m, turn_fg_of_held (.inr hw)]

/-- While a delay runs, what it owes does not grow. -/
theorem IsExecution.waiting_le {ev : Nat → Event} {st : Nat → State} (h : IsExecution ev st) {n m : Nat}
    (hnm : n ≤ m) (hw : ∀ j, n ≤ j → (st j).fg.waiting ≠ 0) : (st m).fg.waiting ≤ (st n).fg.waiting := by
  induction m, hnm using Nat.le_induction with
  | base => exact le_rfl
  | succ m hnm ih =>
    rw [h.waiting_succ (hw m hnm)]
    exact (Nat.sub_le _ _).trans ih

end Sys2Proof.Machine
end

section
/-! PROOFS. Liveness under the fairness of 00_scope.md R14. -/

namespace Sys2Proof.Machine

/-- Settles O54: were the flag set from some point on, fairness would give a turn of the pipeline, which clears it. -/
theorem edgeFlagDoesNotStaySetForever : Obligations.EdgeFlagDoesNotStaySetForever := by
  intro ev st hex hfair n
  by_contra hnone
  have hset : ∀ m, n ≤ m → (st m).edgeFlag = true := fun m hm =>
    Bool.eq_true_of_not_eq_false (fun hf => hnone ⟨m, hm, hf⟩)
  obtain ⟨m, hm, he⟩ := hfair n hset
  have hclear : (st (m + 1)).edgeFlag = false := by rw [hex.succ m, he, turn_handle_edgeFlag]
  exact hnone ⟨m + 1, Nat.le_succ_of_le hm, hclear⟩

/-- Settles O55: a delay that never ended would owe fewer at every tick, without end (strong induction on what it owes). -/
theorem delayEventuallyEnds : Obligations.DelayEventuallyEnds := by
  intro ev st hex hfair n
  by_contra hnone
  have hw : ∀ m, n ≤ m → (st m).fg.waiting ≠ 0 := fun m hm h0 => hnone ⟨m, hm, h0⟩
  clear hnone
  induction hk : (st n).fg.waiting using Nat.strong_induction_on generalizing n with
  | _ k ih =>
    obtain ⟨m, hm, he⟩ := hfair n
    have hle : (st m).fg.waiting ≤ k := hk ▸ hex.waiting_le hm hw
    have hlt : (st (m + 1)).fg.waiting < k := by
      have hpos := hw m hm
      rw [hex.waiting_succ hpos, if_pos he]
      omega
    exact ih _ hlt (m + 1) (fun j hj => hw j (by omega)) rfl

/-- Settles O59: the first turn of the pipeline from then on finds the handoff word as it was captured. -/
theorem pendingEdgeIsEventuallyHandled : Obligations.PendingEdgeIsEventuallyHandled := by
  intro ev st hex hfair n hf hr
  have hhandle : ∃ m, n ≤ m ∧ ev m = .handle := by
    by_contra hnone
    have hset : ∀ m, n ≤ m → (st m).edgeFlag = true := fun m hm =>
      (hex.sameHandoff hm hf (fun j hj _ he => hnone ⟨j, hj, he⟩) hr).edgeFlag.trans hf
    exact hnone (hfair n hset)
  classical
  obtain ⟨hm, he⟩ := Nat.find_spec hhandle
  have hfirst : ∀ j, n ≤ j → j < Nat.find hhandle → ev j ≠ .handle := fun j hj hlt hje =>
    Nat.find_min hhandle hlt ⟨hj, hje⟩
  have hsame := hex.sameHandoff hm hf hfirst hr
  refine ⟨_, hm, he, ?_⟩
  simp only [operationOf_eq, hsame.edgeFlag, hsame.pol, hsame.capt, hf, if_true]

end Sys2Proof.Machine
end

section
/-! PROOFS. The machine's step (00_scope.md R12, R13). -/

namespace Sys2Proof.Machine

/-- Settles O40: a turn is the operation of the word presented and then the agent's notice, or the notice alone. -/
theorem stepRunsTheDecodedOperation : Obligations.StepRunsTheDecodedOperation := by
  refine ⟨fun s w i hp hd => ?_, fun s hp => ?_⟩
  · exact ⟨_, exec_eq_afterOp i _, perform_of_present hp hd⟩
  · simp only [step, perform, hp]

/-- Settles O41, by induction on the schedule: each step takes its first event and no turn looks at the rest. -/
theorem scheduledRunIsTheEventRun : Obligations.ScheduledRunIsTheEventRun := by
  intro es s
  change Sys2Proof.core.run es.length (withSchedule es s) = runEvents es (withSchedule [] s)
  induction es generalizing s with
  | nil => rfl
  | cons e es ih =>
    rw [List.length_cons, core_run_succ _ (step_withSchedule e es s), ih, runEvents, perform_eq_turn,
      turn_withSchedule]
    rfl

end Sys2Proof.Machine
end

section
/-! SUPPORT. Two runs whose counters count from different origins (00_scope.md R10, 41_distance_pipeline.md R96). -/

namespace Sys2Proof.Machine

theorem sub16_eq_sub (a b : Word) : sub16 a b = a - b := by
  apply BitVec.eq_of_toNat_eq
  rw [sub16_toNat, BitVec.toNat_sub]
  have := b.isLt
  congr 1
  omega

/-- The distance depends on the difference of the two timestamps alone (41_distance_pipeline.md R96). -/
theorem computeDistance_shift (rise fall k : Word) : computeDistance (rise + k) (fall + k) = computeDistance rise fall := by
  rw [computeDistance, computeDistance, sub16_eq_sub, sub16_eq_sub, add_sub_add_right_eq_sub]

/-- `s` as a run whose counter stands `k` further sees it: with that counter, and its own timestamps and read data. -/
def recount (k capt riseTs : Word) (r : Option Word) (s : State) : State :=
  { s with cnt := s.cnt + k, capt := capt, riseTs := riseTs, readData := r }

section fields
variable (k c r : Word) (d : Option Word) (s : State)

@[simp] theorem recount_cnt : (recount k c r d s).cnt = s.cnt + k := rfl
@[simp] theorem recount_echoSync : (recount k c r d s).echoSync = s.echoSync := rfl
@[simp] theorem recount_capt : (recount k c r d s).capt = c := rfl
@[simp] theorem recount_pol : (recount k c r d s).pol = s.pol := rfl
@[simp] theorem recount_edgeFlag : (recount k c r d s).edgeFlag = s.edgeFlag := rfl
@[simp] theorem recount_riseTs : (recount k c r d s).riseTs = r := rfl
@[simp] theorem recount_dist : (recount k c r d s).dist = s.dist := rfl
@[simp] theorem recount_edgeState : (recount k c r d s).edgeState = s.edgeState := rfl
@[simp] theorem recount_seqErr : (recount k c r d s).seqErr = s.seqErr := rfl
@[simp] theorem recount_trig : (recount k c r d s).trig = s.trig := rfl
@[simp] theorem recount_fg : (recount k c r d s).fg = s.fg := rfl
@[simp] theorem recount_readData : (recount k c r d s).readData = d := rfl
@[simp] theorem recount_cntChoice : (recount k c r d s).cntChoice = s.cntChoice := rfl
@[simp] theorem recount_schedule : (recount k c r d s).schedule = s.schedule := rfl
@[simp] theorem recount_drawn : (recount k c r d s).drawn = s.drawn := rfl

theorem memWrite_recount (a : Addr) (v : Word) : memWrite a v (recount k c r d s) = recount k c r d (memWrite a v s) := by
  apply State.ext <;> simp

theorem busRead_recount (a : Addr) :
    busRead a (recount k c r d s) = recount k c r (some (memRead a (recount k c r d s))) (busRead a s) := rfl

theorem afterBus_recount (we : Bool) (a : Addr) (v : Word) :
    ∃ d', afterBus we a v (recount k c r d s) = recount k c r d' (afterBus we a v s) := by
  cases we with
  | false => exact ⟨_, busRead_recount k c r d s a⟩
  | true => exact ⟨d, memWrite_recount k c r d s a v⟩

end fields

/-! What the foreground agent reads, and that its turn keeps it running its program (42_bus_and_trigger.md R113, R116). -/

/-- The action reads no word that shows the counter: `DIST` or `STATUS`, if anything. -/
def readsNoCounter (x : Action) : Bool :=
  match x with
  | .read a _     => a == addrDist || a == addrStatus
  | .write _ _    => true
  | .delay _      => true
  | .emit         => true
  | .clearOrEmit  => true

theorem readsNoCounter_of_mem_program {prog : List Action} (hp : prog = runCycle ∨ prog = runCycleChk) {x : Action}
    (hx : x ∈ prog) : readsNoCounter x = true := by
  rcases hp with rfl | rfl
  · exact (by decide : ∀ x ∈ runCycle, readsNoCounter x = true) x hx
  · exact (by decide : ∀ x ∈ runCycleChk, readsNoCounter x = true) x hx

theorem Foreground.Running.todo_suffix {f : Foreground} (h : f.Running) : f.todo <:+ f.prog := by
  cases hr : f.rest with
  | nil => rw [Foreground.todo, hr]
  | cons a r => rw [todo_of_rest hr, ← hr]; exact h.2

/-- The agent asks for a read only where its next action is one. -/
theorem Foreground.todo_of_readRequest {f : Foreground} {a : Addr} {v : Word} (h : f.busRequest = some (false, a, v)) :
    ∃ dst rest, f.todo = .read a dst :: rest := by
  by_cases hw : f.waiting = 0
  · rcases ht : f.todo with _ | ⟨_ | ⟨a', dst⟩ | _ | _ | _, rest⟩
    case cons.read => exact ⟨dst, rest, by simp_all [Foreground.busRequest]⟩
    all_goals simp [Foreground.busRequest, hw, ht] at h
  · simp [Foreground.busRequest, hw] at h

theorem Foreground.Running.readRequest_addr {f : Foreground} (h : f.Running) {a : Addr} {v : Word}
    (hq : f.busRequest = some (false, a, v)) : a = addrDist ∨ a = addrStatus := by
  obtain ⟨dst, rest, ht⟩ := Foreground.todo_of_readRequest hq
  have hx : Action.read a dst ∈ f.prog := h.todo_suffix.subset (by rw [ht]; exact List.mem_cons_self)
  simpa [readsNoCounter] using readsNoCounter_of_mem_program h.1 hx

/-- Only a read looks at the read data. -/
theorem Foreground.advance_of_no_read {f : Foreground} (h : ∀ a v, f.busRequest ≠ some (false, a, v))
    (r r' : Option Word) : f.advance r = f.advance r' := by
  by_cases hw : f.waiting = 0
  · rcases ht : f.todo with _ | ⟨_ | ⟨a, dst⟩ | _ | _ | _, rest⟩
    case cons.read =>
      have hread : f.busRequest = some (false, a, 0) := by simp [Foreground.busRequest, hw, ht]
      exact absurd hread (h a 0)
    all_goals simp only [Foreground.advance, ht]
  · simp only [Foreground.advance, if_pos hw]

/-- In its turn the agent stays where it is in its program or goes on by one action. -/
theorem Foreground.advance_place (f : Foreground) (r : Option Word) :
    (f.advance r).prog = f.prog ∧ ((f.advance r).rest = f.rest ∨ (f.advance r).rest = f.todo.tail) := by
  by_cases hw : f.waiting = 0
  · rcases ht : f.todo with _ | ⟨_ | ⟨a, dst⟩ | _ | _ | _, rest⟩
    case cons.read => cases dst <;> simp [Foreground.advance, Foreground.latch, hw, ht]
    case cons.clearOrEmit => by_cases hs : f.st[3] = true <;> simp [Foreground.advance, hw, ht, hs]
    all_goals simp [Foreground.advance, hw, ht]
  · simp [Foreground.advance, hw]

theorem Foreground.Running.advance {f : Foreground} (h : f.Running) (r : Option Word) : (f.advance r).Running := by
  obtain ⟨hprog, hrest | hrest⟩ := f.advance_place r <;> rw [Foreground.Running, hprog, hrest]
  · exact h
  · exact ⟨h.1, (List.tail_suffix _).trans h.todo_suffix⟩

/-- No turn takes the foreground agent out of its program. -/
theorem turn_running {s : State} (h : s.fg.Running) (e : Event) : (turn e s).fg.Running := by
  by_cases he : e = .foreground
  · subst he
    exact h.advance _
  · rw [turn_fg_of_ne_foreground he]
    exact h

/-! ### One turn of the two runs -/

section turns
variable {s : State} (k c r : Word) (d : Option Word)

/-- The running agent's bus operation gives it the same data in both runs. -/
theorem afterRequest_recount (h : s.fg.Running) :
    ∃ d', afterRequest s.fg.busRequest (recount k c r d s) = recount k c r d' (afterRequest s.fg.busRequest s) ∧
      s.fg.advance d' = s.fg.advance (afterRequest s.fg.busRequest s).readData := by
  rcases hq : s.fg.busRequest with _ | ⟨_ | _, a, v⟩
  · exact ⟨d, rfl, Foreground.advance_of_no_read (by simp [hq]) _ _⟩
  · refine ⟨_, busRead_recount k c r d s a, ?_⟩
    rcases h.readRequest_addr hq with rfl | rfl <;> rfl
  · exact ⟨d, memWrite_recount k c r d s a v, Foreground.advance_of_no_read (by simp [hq]) _ _⟩

theorem turn_foreground_recount (h : s.fg.Running) :
    ∃ d', turn .foreground (recount k c r d s) = recount k c r d' (turn .foreground s) := by
  obtain ⟨d', hreq, hadv⟩ := afterRequest_recount k c r d h
  refine ⟨d', ?_⟩
  simp only [turn, recount_fg, hreq, recount_readData, hadv]
  rfl

theorem turn_tick_recount : turn .tick (recount k c r d s) = recount k c r d (turn .tick s) := by
  apply State.ext <;> simp [turn, add_right_comm]

/-- A calm turn does the same in both runs. -/
theorem turn_calm_recount (h : s.fg.Running) {e : Event} (hq : calmAt s.edgeFlag s.echoSync e = true) :
    ∃ d', turn e (recount k c r d s) = recount k c r d' (turn e s) := by
  cases e with
  | tick => exact ⟨d, turn_tick_recount k c r d⟩
  | reset c' => exact absurd rfl (ne_reset_of_calm hq c')
  | sample l =>
    have hl : l = s.echoSync := by simpa [calmAt, quietAt] using hq
    exact ⟨d, by simp only [turn, hl, recount_echoSync, if_true]⟩
  | handle =>
    have hf : s.edgeFlag = false := by simpa [calmAt, quietAt] using hq
    exact ⟨d, by rw [turn_handle_idle hf]; exact turn_handle_idle hf⟩
  | bus we a v => exact afterBus_recount k c r d s we a v
  | foreground => exact turn_foreground_recount k c r d h

end turns

end Sys2Proof.Machine
end

section
/-! PROOFS. The counter's value after a reset affects no reading: the relation that the two runs keep, kind of turn by kind of turn. -/

namespace Sys2Proof.Machine

/-- The pending edge is a rise, or none is pending and the line is low: so stands a run that has handled no edge since its reset, and
its first edge handled is a rise (70_reset_and_hazards.md R142 (c)). -/
def AwaitsFirstRise (s : State) : Prop := if s.edgeFlag then s.pol = true else s.echoSync = false

/-- `t` is `s` counted from another origin: every timestamp that a distance may still be computed from is moved with the counter. -/
def SameButOrigin (s t : State) : Prop :=
  ∃ k c r d, t = recount k c r d s ∧ (s.edgeFlag = true → c = s.capt + k) ∧ (r = s.riseTs + k ∨ AwaitsFirstRise s)

theorem SameButOrigin.calm {s t : State} (h : SameButOrigin s t) (hrun : s.fg.Running) {e : Event}
    (hq : calmAt s.edgeFlag s.echoSync e = true) : SameButOrigin (turn e s) (turn e t) := by
  obtain ⟨k, c, r, d, rfl, hc, hr⟩ := h
  have q := turn_calm rfl hq
  obtain ⟨d', ht⟩ := turn_calm_recount k c r d hrun hq
  refine ⟨k, c, r, d', ht, ?_, ?_⟩
  · rw [q.edgeFlag, q.capt]; exact hc
  · rw [AwaitsFirstRise, q.riseTs, q.edgeFlag, q.pol, q.echoSync]; exact hr

/-- A reset in the middle of the runs leaves the same value in both counters. -/
theorem SameButOrigin.reset {s t : State} (h : SameButOrigin s t) (v : Option Word) :
    SameButOrigin (turn (.reset v) s) (turn (.reset v) t) := by
  obtain ⟨k, c, r, d, rfl, -, -⟩ := h
  exact ⟨0, 0, 0, d, by apply State.ext <;> simp [turn, afterOp], fun _ => rfl, .inl rfl⟩

/-- A captured edge records both counters at one moment; the first one after a reset is a rise. -/
theorem SameButOrigin.edge {s t : State} (h : SameButOrigin s t) :
    SameButOrigin (turn (.sample (!s.echoSync)) s) (turn (.sample (!s.echoSync)) t) := by
  obtain ⟨k, c, r, d, rfl, hc, hr⟩ := h
  have hl : s.echoSync = !!s.echoSync := (Bool.not_not _).symm
  cases hf : s.edgeFlag with
  | false =>
    rw [turn_sample_free hf hl, turn_sample_free (s := recount k c r d s) hf hl]
    refine ⟨k, s.cnt + k, r, d, rfl, fun _ => rfl, hr.imp_right fun hw => ?_⟩
    simp only [AwaitsFirstRise, hf, Bool.false_eq_true, if_false] at hw
    simp [AwaitsFirstRise, hw]
  | true =>
    rw [turn_sample_lost hf hl, turn_sample_lost (s := recount k c r d s) hf hl]
    refine ⟨k, c, r, d, rfl, fun _ => hc hf, hr.imp_right fun hw => ?_⟩
    simpa only [AwaitsFirstRise, hf, if_true] using hw

/-- A rise moves both timestamps alike, so that the fall after it computes one distance. -/
theorem SameButOrigin.handle {s t : State} (h : SameButOrigin s t) (hf : s.edgeFlag = true) :
    SameButOrigin (turn .handle s) (turn .handle t) := by
  obtain ⟨k, c, r, d, rfl, hc, hr⟩ := h
  have hfree : (turn .handle s).edgeFlag ≠ true := by simp [turn_handle_edgeFlag]
  cases hp : s.pol with
  | true =>
    refine ⟨k, c, c, d, ?_, fun hf' => absurd hf' hfree, .inl ?_⟩
    · rw [turn_handle_rise hf hp, turn_handle_rise (s := recount k c r d s) hf hp]; rfl
    · rw [turn_handle_rise hf hp, hc hf]; rfl
  | false =>
    have hr' : r = s.riseTs + k := hr.resolve_right (by simp [AwaitsFirstRise, hf, hp])
    refine ⟨k, c, r, d, ?_, fun hf' => absurd hf' hfree, .inl ?_⟩
    · have hd : computeDistance r c = computeDistance s.riseTs s.capt := by rw [hr', hc hf, computeDistance_shift]
      rw [turn_handle_fall hf hp, turn_handle_fall (s := recount k c r d s) hf hp]
      apply State.ext <;> simp [afterOp, hd, seqErrAfter]
    · rw [turn_handle_fall hf hp]; exact hr'

/-- Every turn keeps the two runs the same but for the origin. -/
theorem turn_sameButOrigin {s t : State} (h : SameButOrigin s t) (hrun : s.fg.Running) (e : Event) :
    SameButOrigin (turn e s) (turn e t) := by
  rcases turn_kind e s with hq | ⟨v, rfl⟩ | rfl | ⟨rfl, hf⟩
  · exact h.calm hrun hq
  · exact h.reset v
  · exact h.edge
  · exact h.handle hf

theorem run_sameButOrigin {s t : State} (h : SameButOrigin s t) (hrun : s.fg.Running) (es : List Event) :
    SameButOrigin (run es s) (run es t) := by
  induction es generalizing s t with
  | nil => exact h
  | cons e es ih => exact ih (turn_sameButOrigin h hrun e) (turn_running hrun e)

/-- From a reset nothing but the counter's value differs, and no edge was handled. -/
theorem sameButOrigin_of_justReset {s : State} (h : s.JustReset) (c : Word) : SameButOrigin s { s with cnt := c } := by
  obtain ⟨hecho, -, -, hflag, -⟩ := h
  refine ⟨c - s.cnt, s.capt, s.riseTs, s.readData, ?_, by simp [hflag], .inr (by simp [AwaitsFirstRise, hflag, hecho])⟩
  apply State.ext <;> simp

/-- Settles O25: the two runs keep `SameButOrigin`, and none of the four observations depends on the origin. -/
theorem counterResetValueAffectsNoReading : Obligations.CounterResetValueAffectsNoReading := by
  intro es s c hreset hrun
  refine ⟨_, _, runEvents_eq_run es s, runEvents_eq_run es _, ?_⟩
  obtain ⟨k, c', r, d, ht, -, -⟩ := run_sameButOrigin (sameButOrigin_of_justReset hreset c) hrun es
  rw [ht]
  exact ⟨rfl, rfl, rfl, rfl⟩

end Sys2Proof.Machine
end

section
/-! SUPPORT. What each turn leaves in the elements of 10_state.md R20 that the rules over whole runs speak of. -/

namespace Sys2Proof.Machine

/-- The edge machine looks at the polarity handled and at nothing else (41_distance_pipeline.md R99). -/
theorem afterOp_edgeState (i : Instr) (s : State) : (afterOp i s).edgeState = edgeStateStep s.edgeState i := by
  cases i with
  | edgeRise => exact captureEvent_edgeState true s
  | edgeFall => exact captureEvent_edgeState false s
  | _ => rfl

theorem afterOp_seqErr (e : Event) (i : Instr) (s : State) :
    (afterOp i s).seqErr = seqErrStep s.seqErr (e, s, i) := by
  cases i with
  | reset => rfl
  | clrSeqErr => rfl
  | handleRise c => rfl
  | handleFall c => rfl
  | edgeRise => exact (captureEvent_seqErr true s).trans (Bool.or_false _).symm
  | edgeFall => exact (captureEvent_seqErr false s).trans (Bool.or_false _).symm
  | _ => exact (Bool.or_false _).symm

theorem afterOp_dist {i : Instr} (h : writesDist i = false) (s : State) : (afterOp i s).dist = s.dist := by
  cases i with
  | reset => cases h
  | handleFall c => cases h
  | edgeRise => exact captureEvent_dist true s
  | edgeFall => exact captureEvent_dist false s
  | _ => rfl

/-- An observation that each operation changes by `f`, and a turn without an operation not at all, is after a run the fold of `f`
over the run's history. -/
theorem run_eq_foldl_history {α : Type} {p : State → α} {f : α → Event × State × Instr → α}
    (hop : ∀ e s i, operationOf e s = some i → p (turn e s) = f (p s) (e, s, i))
    (hnone : ∀ e s, operationOf e s = none → p (turn e s) = p s) (es : List Event) (s : State) :
    p (run es s) = (history es s).foldl f (p s) := by
  induction es generalizing s with
  | nil => rfl
  | cons e es ih =>
    rw [run_cons, ih, history_cons]
    cases ho : operationOf e s with
    | none => rw [hnone e s ho]; rfl
    | some i => rw [hop e s i ho]; rfl

theorem run_edgeState (es : List Event) (s : State) :
    (run es s).edgeState = edgeStateOf (operations es s) s.edgeState := by
  rw [edgeStateOf, operations, List.foldl_map]
  refine run_eq_foldl_history (p := State.edgeState) (fun e s i ho => ?_) (fun e s ho => ?_) es s
  · obtain ⟨f, ht⟩ := turn_of_operation ho
    rw [ht, withFg_edgeState, afterOp_edgeState, setInputs_edgeState]
  · obtain ⟨f, ht⟩ := turn_of_no_operation ho
    rw [ht, withFg_edgeState]

/-- Whether an edge was awaited does not depend on the environment's inputs of the turn. -/
theorem seqErrStep_setInputs (b : Bool) (e : Event) (s : State) (i : Instr) :
    seqErrStep b (e, setInputs e s, i) = seqErrStep b (e, s, i) := by
  have hu : handledUnawaited (e, setInputs e s, i) = handledUnawaited (e, s, i) := by
    simp only [handledUnawaited, setInputs_edgeState]
  simp only [seqErrStep, hu]

theorem run_seqErr (es : List Event) (s : State) : (run es s).seqErr = seqErrOf (history es s) s.seqErr := by
  refine run_eq_foldl_history (p := State.seqErr) (fun e s i ho => ?_) (fun e s ho => ?_) es s
  · obtain ⟨f, ht⟩ := turn_of_operation ho
    rw [ht, withFg_seqErr, afterOp_seqErr e, setInputs_seqErr, seqErrStep_setInputs]
  · obtain ⟨f, ht⟩ := turn_of_no_operation ho
    rw [ht, withFg_seqErr]

theorem turn_dist_of_not_written {e : Event} {s : State} (h : ∀ i, operationOf e s = some i → writesDist i = false) :
    (turn e s).dist = s.dist := by
  cases ho : operationOf e s with
  | none =>
    obtain ⟨f, ht⟩ := turn_of_no_operation ho
    rw [ht, withFg_dist]
  | some i =>
    obtain ⟨f, ht⟩ := turn_of_operation ho
    rw [ht, withFg_dist, afterOp_dist (h i ho), setInputs_dist]

theorem run_dist_of_not_written {es : List Event} {s : State} (h : ∀ i ∈ operations es s, writesDist i = false) :
    (run es s).dist = s.dist := by
  induction es generalizing s with
  | nil => rfl
  | cons e es ih =>
    rw [operations_cons] at h
    have hhead : ∀ i, operationOf e s = some i → writesDist i = false := fun i hi => h i (by simp [hi])
    have htail : ∀ i ∈ operations es (turn e s), writesDist i = false := fun i hi => h i (by simp [hi])
    rw [run_cons, ih htail, turn_dist_of_not_written hhead]

/-- A pending event is held over every run without a turn of the pipeline or a reset (40_counter_and_capture.md R87). -/
theorem run_sameHandoff {es : List Event} {s : State} (hf : s.edgeFlag = true)
    (hq : ∀ e ∈ es, e ≠ .handle ∧ ∀ c, e ≠ .reset c) : SameHandoff s (run es s) := by
  induction es generalizing s with
  | nil => exact ⟨rfl, rfl, rfl⟩
  | cons e es ih =>
    obtain ⟨hh, hr⟩ := hq e List.mem_cons_self
    have ht := turn_sameHandoff hf hh hr
    have hrun := ih (ht.edgeFlag.trans hf) (fun e' he' => hq e' (List.mem_cons_of_mem e he'))
    exact ⟨hrun.edgeFlag.trans ht.edgeFlag, hrun.pol.trans ht.pol, hrun.capt.trans ht.capt⟩

/-- With an event pending the pipeline handles it by its polarity (41_distance_pipeline.md R90). -/
theorem perform_handle_pending {s : State} (hf : s.edgeFlag = true) :
    perform .handle s = exec (if s.pol then .handleRise s.capt else .handleFall s.capt) s := by
  rw [perform_eq_turn, exec_eq_afterOp]
  cases hp : s.pol with
  | true => rw [turn_handle_rise hf hp]; rfl
  | false => rw [turn_handle_fall hf hp]; rfl

end Sys2Proof.Machine
end

section
/-! SUPPORT. The invariant of 10_state.md R39 (a) and 42_bus_and_trigger.md R115, part by part. -/

namespace Sys2Proof.Machine

/-- Every value the pipeline writes is a distance (41_distance_pipeline.md R95), and no other agent writes one. -/
theorem turn_dist_le {s : State} (h : s.dist.toNat ≤ maxDist) (e : Event) : (turn e s).dist.toNat ≤ maxDist := by
  rcases turn_kind e s with hq | ⟨c, rfl⟩ | rfl | ⟨rfl, hf⟩
  · rw [(turn_calm rfl hq).dist]
    exact h
  · exact Nat.zero_le _
  · cases hf : s.edgeFlag with
    | false => rw [turn_sample_free hf (Bool.not_not _).symm]; exact h
    | true => rw [turn_sample_lost hf (Bool.not_not _).symm]; exact h
  · cases hp : s.pol with
    | true => rw [turn_handle_rise hf hp]; exact h
    | false => rw [turn_handle_fall hf hp]; exact computeDistance_le _ _

/-- What the foreground agent has read as a distance, and all it has emitted, is at most 1129 (42_bus_and_trigger.md R115). -/
def Foreground.Bounded (f : Foreground) : Prop :=
  f.d.toNat ≤ maxDist ∧ ∀ v ∈ f.emitted, v.toNat ≤ maxDist

/-- `d` is read from `DIST` in both programs (42_bus_and_trigger.md R113, R116). -/
theorem addr_of_read_d_mem_program {prog : List Action} (hp : prog = runCycle ∨ prog = runCycleChk) {a : Addr}
    (h : Action.read a .d ∈ prog) : a = addrDist := by
  rcases hp with rfl | rfl <;> simpa [runCycle, runCycleChk, ping] using h

/-- The agent emits only its `d`, and takes a new `d` only from a read. -/
theorem Foreground.Bounded.advance {f : Foreground} (h : f.Bounded) {r : Option Word}
    (hr : ∀ a rest, f.waiting = 0 → f.todo = .read a .d :: rest → (r.getD 0).toNat ≤ maxDist) :
    (f.advance r).Bounded := by
  have hemit : ∀ v ∈ f.d :: f.emitted, v.toNat ≤ maxDist := List.forall_mem_cons.2 h
  by_cases hw : f.waiting = 0
  · rcases ht : f.todo with _ | ⟨_ | ⟨a, _ | _⟩ | _ | _ | _, rest⟩ <;>
      simp only [Foreground.advance, Foreground.latch, hw, ht, ne_eq, not_true, if_false]
    case cons.read.d => exact ⟨hr a rest hw ht, h.2⟩
    case cons.emit => exact ⟨h.1, hemit⟩
    case cons.clearOrEmit =>
      split
      · exact h
      · exact ⟨h.1, hemit⟩
    all_goals exact h
  · rw [Foreground.advance, if_pos hw]
    exact h

theorem turn_foreground_bounded {s : State} (hdist : s.dist.toNat ≤ maxDist) (hrun : s.fg.Running)
    (hfg : s.fg.Bounded) : (turn .foreground s).fg.Bounded := by
  refine hfg.advance fun a rest hw ht => ?_
  have ha : a = addrDist :=
    addr_of_read_d_mem_program hrun.1 (hrun.todo_suffix.subset (by rw [ht]; exact List.mem_cons_self))
  have hread : (afterRequest s.fg.busRequest s).readData = some s.dist := by
    simp [Foreground.busRequest, hw, ht, ha, afterRequest, afterBus]
  rw [hread]
  exact hdist

theorem turn_inv {s : State} (h : s.Inv) (e : Event) : (turn e s).Inv := by
  obtain ⟨hdist, hrun, hfg⟩ := h
  refine ⟨turn_dist_le hdist e, turn_running hrun e, ?_⟩
  by_cases he : e = .foreground
  · subst he
    exact turn_foreground_bounded hdist hrun hfg
  · rw [turn_fg_of_ne_foreground he]
    exact hfg

end Sys2Proof.Machine
end

section
/-! PROOFS. The invariant (10_state.md R38, R39 (a)). -/

namespace Sys2Proof.Machine

/-- Settles O4: whichever event is due, taking it off the schedule keeps the invariant, and so does its turn. -/
theorem everyStepKeepsTheInvariant : Obligations.EveryStepKeepsTheInvariant := by
  intro s t h hstep
  rw [step, perform_eq_turn] at hstep
  cases hstep
  have htake : (takeEvent s).Inv := by
    unfold takeEvent
    split <;> exact h
  exact turn_inv htake _

/-- Settles O3: nothing is measured, read or emitted yet, and the agent stands at the start of `RUN_CYCLE`. -/
theorem invariantHoldsAtReset : Obligations.InvariantHoldsAtReset :=
  ⟨Nat.zero_le _, ⟨.inl rfl, List.suffix_refl _⟩, Nat.zero_le _, List.forall_mem_nil _⟩

/-- Settles O2: `STATUS` is the weighted sum of five cleared bits. -/
theorem resetStateHoldsTheStatedValues : Obligations.ResetStateHoldsTheStatedValues := by
  refine ⟨fun c => ⟨?_, rfl, ?_, rfl⟩, _, rfl⟩
  · exact ⟨rfl, rfl, rfl, rfl, rfl, rfl, rfl, rfl, rfl⟩
  · exact BitVec.eq_of_toNat_eq (statusWord_toNat _)

end Sys2Proof.Machine
end

section
/-! PROOFS. What every run keeps of the block's elements (10_state.md R39 (b), (c), (e), (f)). -/

namespace Sys2Proof.Machine

/-- Settles O10: no turn of the run touches the handoff word, and the pipeline handles what that word says. -/
theorem pendingEventIsHeld : Obligations.PendingEventIsHeld := by
  intro es s hf hq
  have h := run_sameHandoff hf hq
  have hpending := h.edgeFlag.trans hf
  refine ⟨run es s, runEvents_eq_run es s, hpending, h.pol, h.capt, ?_⟩
  rw [perform_handle_pending hpending, h.pol, h.capt]

/-- Settles O36: the edge state is a fold over the run's operations. -/
theorem edgeStateIsTheLastHandledPolarity : Obligations.EdgeStateIsTheLastHandledPolarity :=
  fun es s => ⟨run es s, runEvents_eq_run es s, run_edgeState es s⟩

/-- Settles O37: the sequence error is a fold over the run's history. -/
theorem sequenceErrorRecordsEveryUnawaitedEdge : Obligations.SequenceErrorRecordsEveryUnawaitedEdge :=
  fun es s => ⟨run es s, runEvents_eq_run es s, run_seqErr es s⟩

/-- Settles O38: the run keeps `DIST`, and a read of it returns what it finds there. -/
theorem distanceIsKeptUntilAFallIsHandled : Obligations.DistanceIsKeptUntilAFallIsHandled := by
  intro es s h
  have hdist := run_dist_of_not_written h
  refine ⟨run es s, runEvents_eq_run es s, hdist, ?_⟩
  rw [exec_eq_afterOp, ← hdist]
  rfl

end Sys2Proof.Machine
end

section
/-! SUPPORT. `STATUS` and `TRIGR` bit by bit (10_state.md R32, R33). -/

namespace Sys2Proof.Machine

/-- `STATUS` as a binary number, `EDGE_FLAG` its least significant bit (R32). -/
theorem statusWord_toNat_bits (s : State) :
    (statusWord s).toNat =
      Nat.bit s.edgeFlag (Nat.bit s.pol (Nat.bit (edgeStateBit s.edgeState) (Nat.bit s.seqErr (Nat.bit s.echoSync 0)))) := by
  rw [statusWord_toNat]
  simp only [Nat.bit_val]
  omega

theorem statusWord_getLsbD (s : State) (i : Nat) :
    (statusWord s).getLsbD i =
      [s.edgeFlag, s.pol, edgeStateBit s.edgeState, s.seqErr, s.echoSync].getD i false := by
  rw [BitVec.getLsbD, statusWord_toNat_bits]
  rcases i with _ | _ | _ | _ | _ | i <;> simp [Nat.testBit_bit_succ]

theorem statusWord_getLsbD_reserved (s : State) {i : Nat} (h : 5 ≤ i) : (statusWord s).getLsbD i = false := by
  rw [statusWord_getLsbD, List.getD_eq_default _ _ h]

theorem trigrWord_getLsbD_zero (s : State) : (trigrWord s).getLsbD 0 = s.trig := by
  unfold trigrWord
  cases s.trig <;> rfl

theorem trigrWord_getLsbD_reserved (s : State) {i : Nat} (h : 1 ≤ i) : (trigrWord s).getLsbD i = false := by
  have hlt : (trigrWord s).toNat < 2 ^ i := by
    rw [trigrWord, bitWord_toNat]
    exact (Bool.toNat_lt s.trig).trans_le (Nat.pow_le_pow_right two_pos h)
  exact Nat.testBit_lt_two_pow hlt

theorem edgeStateBit_eq (e : EdgeState) : edgeStateBit e = (e == .awaitingFall) := by cases e <;> rfl

theorem edgeStateBit_edgeStateAfter (r : Bool) : edgeStateBit (edgeStateAfter r) = r := by cases r <;> rfl

/-- The state whose `STATUS` fields are the low five bits of `w`. -/
def stateOfStatus (w : Word) : State :=
  { State.reset with
    edgeFlag := w.getLsbD 0, pol := w.getLsbD 1, edgeState := edgeStateAfter (w.getLsbD 2)
    seqErr := w.getLsbD 3, echoSync := w.getLsbD 4 }

theorem statusWord_stateOfStatus {w : Word} (h : w.toNat < 32) : statusWord (stateOfStatus w) = w := by
  apply BitVec.eq_of_getLsbD_eq
  intro i _
  rw [statusWord_getLsbD]
  rcases i with _ | _ | _ | _ | _ | i
  case succ.succ.succ.succ.succ =>
    have hi : w.toNat < 2 ^ (i + 5) := h.trans_le (Nat.pow_le_pow_right two_pos (Nat.le_add_left 5 i))
    exact (Nat.testBit_lt_two_pow hi).symm
  case succ.succ.zero => exact edgeStateBit_edgeStateAfter _
  all_goals rfl

/-- A write of `STATUS` as one update: `SEQ_ERR` stays where the write data does not clear it (R32). -/
theorem memWrite_status_eq (v : Word) (s : State) :
    memWrite addrStatus v s = { s with seqErr := s.seqErr && !v.getLsbD 3 } := by
  rw [memWrite_status]
  cases v.getLsbD 3 <;> simp

end Sys2Proof.Machine
end

section
/-! PROOFS. The layout of the composite registers, and which operations write which element (10_state.md R20, R32, R33, R36). -/

namespace Sys2Proof.Machine

/-- Settles O30: the bits are read off the word as a binary number, and a write is one update. -/
theorem statusAndTrigrLayout : Obligations.StatusAndTrigrLayout := by
  refine ⟨fun s => ?_, fun w hw => ⟨_, statusWord_stateOfStatus hw⟩, fun s v => ?_⟩
  · have hbit := statusWord_getLsbD s
    exact ⟨hbit 0, hbit 1, (hbit 2).trans (edgeStateBit_eq _), hbit 3, hbit 4,
      fun _ hi => statusWord_getLsbD_reserved s hi, trigrWord_getLsbD_zero s,
      fun _ hi => trigrWord_getLsbD_reserved s hi⟩
  · have hstatus := memWrite_status_eq v s
    have htrigr := memWrite_trigr v s
    exact ⟨statusWord_toNat s, perform_eq_turn _ s, (perform_eq_turn _ s).trans (congrArg _ hstatus),
      (perform_eq_turn _ s).trans (congrArg _ htrigr), hstatus, htrigr⟩

/-- Settles O35, operation by operation: an edge writes the latch only where it finds the flag 0. -/
theorem eachElementHasItsWriters : Obligations.EachElementHasItsWriters := by
  intro i s t h
  rw [exec_eq_afterOp] at h
  cases h
  cases i with
  | edgeRise => cases hf : s.edgeFlag <;> simp +contextual [afterOp, hf]
  | edgeFall => cases hf : s.edgeFlag <;> simp +contextual [afterOp, hf]
  | handleRise c => simp +contextual [afterOp, handledPolarity, seqErrAfter]
  | handleFall c => simp +contextual [afterOp, handledPolarity, seqErrAfter]
  | _ => simp +contextual [afterOp]

end Sys2Proof.Machine
end

section
/-! SUPPORT. What a read and a write of the register space depend on and leave alone (20_memory.md R42, R43, R47 to R49). -/

namespace Sys2Proof.Machine

/-- The register space shows `CNT`, `CAPT`, `DIST` and the two composite views, each at its own address, and nothing else of the
state (R42). -/
theorem memRead_congr {s t : State} (b : Addr) (hcnt : s.cnt = t.cnt) (hcapt : s.capt = t.capt) (hdist : s.dist = t.dist)
    (hstatus : b = addrStatus → statusWord s = statusWord t) (htrigr : b = addrTrigr → trigrWord s = trigrWord t) :
    memRead b s = memRead b t := by
  rcases addr_cases b with h | h | h | h | h | h | h | h <;> subst h
  exacts [hcnt, hcapt, hstatus rfl, hdist, htrigr rfl, rfl, rfl, rfl]

/-- A write is seen at its own address only: `SEQ_ERR` is shown by `STATUS` alone, `TRIG` by `TRIGR` alone (R43). -/
theorem memRead_memWrite_of_ne {a b : Addr} (h : b ≠ a) (v : Word) (s : State) :
    memRead b (memWrite a v s) = memRead b s := by
  refine memRead_congr b (memWrite_cnt a v s) (memWrite_capt a v s) (memWrite_dist a v s) ?_ ?_
  · rintro rfl
    have hseq : (memWrite a v s).seqErr = s.seqErr := by simp [h.symm]
    exact statusWord_congr (memWrite_edgeFlag a v s) (memWrite_pol a v s) (memWrite_edgeState a v s) hseq
      (memWrite_echoSync a v s)
  · rintro rfl
    simp [trigrWord, h.symm]

/-- A read has no side effect on any word (R47). -/
@[simp] theorem memRead_busRead (a b : Addr) (s : State) : memRead b (busRead a s) = memRead b s :=
  memRead_congr b rfl rfl rfl (fun _ => rfl) (fun _ => rfl)

theorem busRead_busRead (a : Addr) (s : State) : busRead a (busRead a s) = busRead a s := by
  apply State.ext <;> simp

theorem memWrite_memWrite (a : Addr) (v : Word) (s : State) : memWrite a v (memWrite a v s) = memWrite a v s := by
  apply State.ext <;> simp +contextual

/-- A reserved address (R49) is neither of the two a write looks at. -/
theorem ne_of_reserved {a : Addr} (h : a = 5 ∨ a = 6 ∨ a = 7) : a ≠ addrTrigr ∧ a ≠ addrStatus := by
  rcases h with rfl | rfl | rfl <;> decide

theorem memRead_of_reserved {a : Addr} (h : a = 5 ∨ a = 6 ∨ a = 7) (s : State) : memRead a s = 0 := by
  rcases h with rfl | rfl | rfl <;> rfl

/-- A write is decided by its address and the one data bit its address looks at (R48, 30_encoding.md R66). -/
theorem decodeWrite_congr {a : Addr} {v w : Word} (htrigr : a = addrTrigr → v.getLsbD 0 = w.getLsbD 0)
    (hstatus : a = addrStatus → v.getLsbD 3 = w.getLsbD 3) : decodeWrite a v = decodeWrite a w := by
  rcases addr_cases a with h | h | h | h | h | h | h | h <;> subst h
  case inr.inr.inl => exact congrArg (fun b : Bool => if b then Instr.clrSeqErr else .wrStatusNop) (hstatus rfl)
  case inr.inr.inr.inr.inl => exact congrArg (fun b : Bool => if b then Instr.trigAssert else .trigDeassert) (htrigr rfl)
  all_goals rfl

theorem perform_read (a : Addr) (v : Word) (s : State) : perform (.bus false a v) s = .next (busRead a s) :=
  perform_eq_turn _ s

theorem perform_write (a : Addr) (v : Word) (s : State) : perform (.bus true a v) s = .next (memWrite a v s) :=
  perform_eq_turn _ s

end Sys2Proof.Machine
end

section
/-! PROOFS. The register space (20_memory.md R42, R43, R47 to R49). -/

namespace Sys2Proof.Machine

/-- Settles O31: the frame is `memRead_memWrite_of_ne`. -/
theorem registerSpaceWrites : Obligations.RegisterSpaceWrites := by
  refine ⟨fun v s => ⟨memWrite_trigr v s, fun h => ?_, fun h => ?_⟩, fun a v s h4 h2 => memWrite_ignored h4 h2 v s,
    fun a b v s h => memRead_memWrite_of_ne h v s⟩
  · exact (memWrite_status v s).trans (if_pos h)
  · exact (memWrite_status v s).trans (if_neg (Bool.eq_false_iff.1 h))

/-- Settles O32: writes that agree in the bit looked at decode to one operation, and a read looks at no data bit. -/
theorem ignoredDataBitsHaveNoEffect : Obligations.IgnoredDataBitsHaveNoEffect := by
  refine ⟨fun a v w s htrigr hstatus => ?_, fun a v w s => ?_, fun a v s h => ⟨?_, ?_⟩, fun s => ⟨?_, ?_⟩⟩
  · have hop : decodeWrite a v = decodeWrite a w := decodeWrite_congr htrigr hstatus
    constructor
    · rw [operationOf_eq, operationOf_eq]
      exact congrArg some hop
    · rw [perform_write, perform_write, ← afterOp_decodeWrite, hop, afterOp_decodeWrite]
  · rw [perform_read, perform_read]
  · obtain ⟨h4, h2⟩ := ne_of_reserved h
    rw [perform_write, memWrite_ignored h4 h2]
  · rw [perform_read, busRead, memRead_of_reserved h]
  · exact fun _ hi => statusWord_getLsbD_reserved s hi
  · exact fun _ hi => trigrWord_getLsbD_reserved s hi

/-- Settles O33: a read changes no word, so the second finds what the first found; a write sets what it has already set. -/
theorem readsAndWritesAreIdempotent : Obligations.ReadsAndWritesAreIdempotent := by
  refine ⟨fun a v s => ⟨busRead a s, perform_read a v s, fun b => memRead_busRead a b s, rfl, ?_⟩,
    fun a v s => ⟨memWrite a v s, perform_write a v s, ?_⟩⟩
  · rw [perform_read, busRead_busRead]
  · rw [perform_write, memWrite_memWrite]

/-- Settles O29: the words one by one; `RISE_TS` is none of the elements `memRead_congr` asks about. -/
theorem registerSpaceReads : Obligations.RegisterSpaceReads := by
  refine ⟨fun s => ?_, fun a v s => memRead_congr a rfl rfl rfl (fun _ => rfl) (fun _ => rfl)⟩
  exact ⟨memRead_cnt s, memRead_capt s, statusWord_toNat s, memRead_dist s, bitWord_toNat s.trig, memRead_rsvd5 s,
    memRead_rsvd6 s, memRead_rsvd7 s⟩

end Sys2Proof.Machine
end

section
/-! SUPPORT. The words of the five formats, and what the decoder answers for each (30_encoding.md R60 to R68). -/

namespace Sys2Proof.Machine

/-- A word of a format: one that its agent's inputs form (R61 to R66), or one of the two that are no step (R61, R65). -/
inductive WordOfFormat : FmtWord → Prop where
  | noTick : WordOfFormat ⟨.T, 0⟩
  | tick : WordOfFormat tickWord
  | noReset : WordOfFormat ⟨.R, 0⟩
  | reset : WordOfFormat resetWord
  | edge (prev lvl : Bool) : WordOfFormat (edgeWord prev lvl)
  | handoff (flag pol : Bool) (capt : Word) : WordOfFormat (handoffWord flag pol capt)
  | bus (we : Bool) (a : Addr) (v : Word) : WordOfFormat (busWord we a v)

/-- Bits that fit a format are a word of it (R60). -/
theorem wordOfFormat_of_fits {w : FmtWord} (h : w.fits = true) : WordOfFormat w := by
  obtain ⟨f, b⟩ := w
  rw [fits_iff] at h
  cases f with
  | T =>
    change b < 2 at h
    interval_cases b
    exacts [.noTick, .tick]
  | R =>
    change b < 2 at h
    interval_cases b
    exacts [.noReset, .reset]
  | P =>
    change b < 4 at h
    interval_cases b
    exacts [.edge false false, .edge false true, .edge true false, .edge true true]
  | H =>
    obtain ⟨flag, pol, capt, hw⟩ := exists_handoffWord h
    exact hw ▸ .handoff flag pol capt
  | B =>
    obtain ⟨we, a, v, hw⟩ := exists_busWord h
    exact hw ▸ .bus we a v

theorem decode_of_not_fits {w : FmtWord} (h : w.fits = false) : decode w = .error (.tooWide w.fmt) := by
  rw [decode, h]
  rfl

theorem fits_of_decode {w : FmtWord} {i : Instr} (h : decode w = .ok i) : w.fits = true := by
  refine Bool.eq_true_of_not_eq_false fun hf => ?_
  rw [decode_of_not_fits hf] at h
  cases h

/-- The word of a format that is not a step is rejected by name (R61, R65). -/
theorem decode_of_not_isStep {w : FmtWord} (hfit : w.fits = true) (h : w.isStep = false) :
    decode w = .error (.noStep w.fmt) := by
  cases wordOfFormat_of_fits hfit with
  | noTick => rfl
  | noReset => rfl
  | tick => cases h
  | reset => cases h
  | edge prev lvl => cases h
  | handoff flag pol capt => cases h
  | bus we a v => cases h

/-- A word selects an operation exactly if it is well formed (R68). -/
theorem wf_iff_exists_decode (w : FmtWord) : w.wf = true ↔ ∃ i, decode w = .ok i := by
  rw [FmtWord.wf, Bool.and_eq_true]
  constructor
  · rintro ⟨hfit, hstep⟩
    cases wordOfFormat_of_fits hfit with
    | noTick => cases hstep
    | noReset => cases hstep
    | tick => exact ⟨_, decode_tickWord⟩
    | reset => exact ⟨_, decode_resetWord⟩
    | edge prev lvl => exact ⟨_, decode_edgeWord prev lvl⟩
    | handoff flag pol capt => exact ⟨_, decode_handoffWord flag pol capt⟩
    | bus we a v => exact ⟨_, decode_busWord we a v⟩
  · rintro ⟨i, h⟩
    have hfit := fits_of_decode h
    refine ⟨hfit, Bool.eq_true_of_not_eq_false fun hstep => ?_⟩
    rw [decode_of_not_isStep hfit hstep] at h
    cases h

/-! The bits an operation looks at (R63, R64). -/

/-- A mask on a word of format H: `flag` and `pol`, and the masked captured value. -/
theorem handoffWord_and (flag pol : Bool) (capt : Word) (k m : Nat) (hm : m < 2 ^ 16) :
    (handoffWord flag pol capt).bits &&& (2 ^ 16 * k + m) =
      2 ^ 16 * ((2 * flag.toNat + pol.toNat) &&& k) + (capt.toNat &&& m) := by
  rw [← and_cut16 _ _ _ _ capt.isLt hm]
  congr 1
  simp only [handoffWord]
  omega

theorem toNat_and_ones (v : Word) : v.toNat &&& 0xFFFF = v.toNat :=
  Nat.and_two_pow_sub_one_of_lt_two_pow v.isLt

/-- The operation of a read, as a word: its address, and no data bit (R66). -/
theorem encode_decodeRead (a : Addr) (v : Word) :
    encode (decodeRead a) = ⟨.B, (busWord false a v).bits &&& usedBits (decodeRead a)⟩ := by
  have henc : encode (decodeRead a) = ⟨.B, 2 ^ 16 * a.toNat⟩ := by revert a; decide
  have hused : usedBits (decodeRead a) = 2 ^ 16 * 15 + 0 := by revert a; decide
  rw [henc, hused, busWord_and false a v 0 (by decide)]
  simp

/-- The data bits that a write of `a` looks at: `wdata[3]` of `STATUS`, `wdata[0]` of `TRIGR` (R66). -/
def writeMask (a : Addr) : Nat :=
  if a = addrStatus then 2 ^ 3 else if a = addrTrigr then 2 ^ 0 else 0

theorem writeMask_lt (a : Addr) : writeMask a < 2 ^ 16 := by revert a; decide

theorem usedBits_decodeWrite (a : Addr) (v : Word) : usedBits (decodeWrite a v) = 2 ^ 16 * 15 + writeMask a := by
  rcases addr_cases a with h | h | h | h | h | h | h | h <;> subst h
  case inr.inr.inl =>
    show usedBits (if v.getLsbD 3 then .clrSeqErr else .wrStatusNop) = _
    cases v.getLsbD 3 <;> rfl
  case inr.inr.inr.inr.inl =>
    show usedBits (if v.getLsbD 0 then .trigAssert else .trigDeassert) = _
    cases v.getLsbD 0 <;> rfl
  all_goals rfl

theorem encode_decodeWrite_eq (a : Addr) (v : Word) :
    encode (decodeWrite a v) = ⟨.B, 2 ^ 16 * (8 + a.toNat) + (v.toNat &&& writeMask a)⟩ := by
  rcases addr_cases a with h | h | h | h | h | h | h | h <;> subst h
  case inr.inr.inl =>
    show encode (if v.getLsbD 3 then .clrSeqErr else .wrStatusNop) = ⟨.B, 0xA0000 + (v.toNat &&& 2 ^ 3)⟩
    rw [toNat_and_bit]
    cases v.getLsbD 3 <;> rfl
  case inr.inr.inr.inr.inl =>
    show encode (if v.getLsbD 0 then .trigAssert else .trigDeassert) = ⟨.B, 0xC0000 + (v.toNat &&& 2 ^ 0)⟩
    rw [toNat_and_bit]
    cases v.getLsbD 0 <;> rfl
  all_goals exact congrArg (FmtWord.mk .B) (congrArg (_ + ·) (Nat.and_zero v.toNat).symm)

/-- The operation of a write, as a word: its address, and the data bit its address looks at (R66). -/
theorem encode_decodeWrite (a : Addr) (v : Word) :
    encode (decodeWrite a v) = ⟨.B, (busWord true a v).bits &&& usedBits (decodeWrite a v)⟩ := by
  rw [encode_decodeWrite_eq, usedBits_decodeWrite, busWord_and true a v _ (writeMask_lt a)]
  rfl

/-- Encoding the operation of a word keeps the bits that the operation does not ignore (R64). -/
theorem encode_of_decode {w : FmtWord} {i : Instr} (h : decode w = .ok i) :
    encode i = ⟨w.fmt, w.bits &&& usedBits i⟩ := by
  cases wordOfFormat_of_fits (fits_of_decode h) with
  | noTick => cases h
  | noReset => cases h
  | tick => cases h; rfl
  | reset => cases h; rfl
  | edge prev lvl =>
    rw [decode_edgeWord] at h
    cases h
    cases prev <;> cases lvl <;> rfl
  | handoff flag pol capt =>
    rw [decode_handoffWord] at h
    cases h
    have hall := handoffWord_and flag pol capt 3 0xFFFF (by decide)
    have hflag := handoffWord_and flag pol capt 2 0 (by decide)
    rw [toNat_and_ones] at hall
    rw [Nat.and_zero] at hflag
    cases flag with
    | false => cases pol <;> exact congrArg (FmtWord.mk .H) hflag.symm
    | true => cases pol <;> exact congrArg (FmtWord.mk .H) hall.symm
  | bus we a v =>
    rw [decode_busWord] at h
    cases h
    cases we with
    | false => exact encode_decodeRead a v
    | true => exact encode_decodeWrite a v

end Sys2Proof.Machine
end

section
/-! SUPPORT. The opcode map as data: each operation has its row, and no two rows overlap (30_encoding.md R67, R68). -/

namespace Sys2Proof.Machine

/-- The mask of an operation's row: every bit the operation looks at but its operand, the captured value (R63, R67). -/
def rowMask (i : Instr) : Nat :=
  match i with
  | .handleRise _ => 0x30000
  | .handleFall _ => 0x30000
  | i => usedBits i

/-- The row of an operation in the opcode map (R67). -/
def rowOf (i : Instr) : OpRow := ⟨mnemonicOf i, (encode i).fmt, (encode i).bits &&& rowMask i, rowMask i⟩

theorem rowMask_and_usedBits (i : Instr) : usedBits i &&& rowMask i = rowMask i := by
  cases i with
  | handleRise c => exact (by decide : 0x3FFFF &&& 0x30000 = 0x30000)
  | handleFall c => exact (by decide : 0x3FFFF &&& 0x30000 = 0x30000)
  | _ => exact Nat.and_self _

theorem encode_handleRise (c : Word) : encode (.handleRise c) = handoffWord true true c := rfl

theorem encode_handleFall (c : Word) : encode (.handleFall c) = handoffWord true false c := rfl

theorem rowOf_handleRise (c : Word) : rowOf (.handleRise c) = ⟨"HANDLE_RISE", .H, 0x30000, 0x30000⟩ := by
  have h := handoffWord_and true true c 3 0 (by decide)
  rw [← encode_handleRise, Nat.and_zero] at h
  exact congrArg (OpRow.mk _ _ · _) h

theorem rowOf_handleFall (c : Word) : rowOf (.handleFall c) = ⟨"HANDLE_FALL", .H, 0x20000, 0x30000⟩ := by
  have h := handoffWord_and true false c 3 0 (by decide)
  rw [← encode_handleFall, Nat.and_zero] at h
  exact congrArg (OpRow.mk _ _ · _) h

theorem rowOf_mem_opTable (i : Instr) : rowOf i ∈ opTable := by
  cases i with
  | handleRise c => rw [rowOf_handleRise]; decide
  | handleFall c => rw [rowOf_handleFall]; decide
  | _ => decide

theorem selects_iff (r : OpRow) (w : FmtWord) :
    r.selects w = true ↔ r.fmt = w.fmt ∧ w.bits &&& r.mask = r.matchBits := by
  simp [OpRow.selects]

/-- A word selects the row of the operation it decodes to: the row's mask looks at no bit the operation ignores. -/
theorem rowOf_selects_of_decode {w : FmtWord} {i : Instr} (h : decode w = .ok i) : (rowOf i).selects w = true := by
  have henc := encode_of_decode h
  rw [selects_iff, rowOf]
  simp only [henc, Nat.and_assoc, rowMask_and_usedBits, and_self]

/-- No word selects two rows (R68): where both look, the two rows ask for different bits. -/
theorem opTable_pairwise_not_selects (w : FmtWord) :
    opTable.Pairwise (fun r q => ¬(r.selects w = true ∧ q.selects w = true)) := by
  have hdiffer : opTable.Pairwise (fun r q => r.fmt ≠ q.fmt ∨ r.matchBits &&& q.mask ≠ q.matchBits &&& r.mask) := by
    decide
  refine hdiffer.imp ?_
  rintro r q hne ⟨hr, hq⟩
  obtain ⟨hrf, hrb⟩ := (selects_iff r w).1 hr
  obtain ⟨hqf, hqb⟩ := (selects_iff q w).1 hq
  rcases hne with hf | hb
  · exact hf (hrf.trans hqf.symm)
  · refine hb ?_
    rw [← hrb, ← hqb, Nat.and_right_comm]

/-- Of elements of which no two pass a test, one that passes is the only one. -/
theorem filter_eq_singleton_of_pairwise {α : Type} {p : α → Bool} {l : List α}
    (hl : l.Pairwise (fun a b => ¬(p a = true ∧ p b = true))) {x : α} (hx : x ∈ l) (hp : p x = true) :
    l.filter p = [x] := by
  induction l with
  | nil => cases hx
  | cons y l ih =>
    obtain ⟨hy, hl⟩ := List.pairwise_cons.1 hl
    rcases List.mem_cons.1 hx with rfl | hx
    · rw [List.filter_cons_of_pos hp, List.filter_eq_nil_iff.2 fun z hz hpz => hy z hz ⟨hp, hpz⟩]
    · rw [List.filter_cons_of_neg fun hpy => hy x hx ⟨hpy, hp⟩, ih hl hx]

theorem rows_of_decode {w : FmtWord} {i : Instr} (h : decode w = .ok i) :
    opTable.filter (fun r => r.selects w) = [rowOf i] :=
  filter_eq_singleton_of_pairwise (opTable_pairwise_not_selects w) (rowOf_mem_opTable i) (rowOf_selects_of_decode h)

end Sys2Proof.Machine
end

section
/-! PROOFS. The encodings (30_encoding.md R61 to R68). -/

namespace Sys2Proof.Machine

/-- Settles O43: but for the handlers, whose words are handoff words, each canonical word is one number. -/
theorem encodedOperationsDecode : Obligations.EncodedOperationsDecode := by
  intro i
  cases i with
  | handleRise c => rw [encode_handleRise, decode_handoffWord]; rfl
  | handleFall c => rw [encode_handleFall, decode_handoffWord]; rfl
  | _ => decide

/-- Settles O44: format by format, the operation keeps its row's bits of the word, and the handlers the captured value. -/
theorem decodedWordsAreCanonicalUpToIgnoredBits : Obligations.DecodedWordsAreCanonicalUpToIgnoredBits :=
  ⟨fun _ _ h => encode_of_decode h, fun _ h => decode_of_not_fits h⟩

/-- Settles O45: the word selects its operation's row, and no two rows overlap. -/
theorem decoderAgreesWithTheOpcodeMap : Obligations.DecoderAgreesWithTheOpcodeMap := by
  refine ⟨fun w hw => ?_, fun w hfit hstep => decode_of_not_isStep hfit hstep⟩
  obtain ⟨i, hi⟩ := (wf_iff_exists_decode w).1 hw
  refine ⟨i, hi, ?_⟩
  rw [rows_of_decode hi]
  rfl

/-- Settles O46, by running the decoder on the nine words. -/
theorem writtenOutWordsDecode : Obligations.WrittenOutWordsDecode := by
  unfold Obligations.WrittenOutWordsDecode
  decide

end Sys2Proof.Machine
end

section
/-! SUPPORT. The words presented from outside the machine (30_encoding.md R60 to R65). -/

namespace Sys2Proof.Machine

/-! The words of formats P, H and B by their fields (R62 to R64). -/

theorem edgeWord_of_bits (x : BitVec 2) : edgeWord (x.getLsbD 1) (x.getLsbD 0) = ⟨.P, x.toNat⟩ := by
  have := x.isLt
  simp only [edgeWord, BitVec.getLsbD, Nat.toNat_testBit, FmtWord.mk.injEq, true_and]
  omega

theorem handoffWord_of_bits (x : BitVec 18) :
    handoffWord (x.getLsbD 17) (x.getLsbD 16) (x.extractLsb' 0 16) = ⟨.H, x.toNat⟩ := by
  have := x.isLt
  simp only [handoffWord, BitVec.getLsbD, Nat.toNat_testBit, BitVec.extractLsb'_toNat, Nat.shiftRight_zero,
    FmtWord.mk.injEq, true_and]
  omega

theorem busWord_of_bits (x : BitVec 20) :
    busWord (x.getLsbD 19) (x.extractLsb' 16 3) (x.extractLsb' 0 16) = ⟨.B, x.toNat⟩ := by
  have := x.isLt
  simp only [busWord, BitVec.getLsbD, Nat.toNat_testBit, BitVec.extractLsb'_toNat, Nat.shiftRight_eq_div_pow,
    FmtWord.mk.injEq, true_and]
  omega

/-- A word presented next is the word that the next event's agent sees (R60). -/
theorem present_presentWord {f : Fmt} {b : Nat} (h : FmtWord.wf ⟨f, b⟩ = true) (s : State) :
    present (dueEvent (presentWord s f b)) (takeEvent (presentWord s f b)) = some ⟨f, b⟩ := by
  obtain ⟨hfit, hstep⟩ := (Bool.and_eq_true _ _).mp h
  rw [fits_iff] at hfit
  have hbits : (BitVec.ofNat f.width b).toNat = b := (BitVec.toNat_ofNat _ _).trans (Nat.mod_eq_of_lt hfit)
  have hone : b < 2 → b ≠ 0 → b = 1 := by omega
  cases f with
  | T => rw [hone hfit (of_decide_eq_true hstep)]; rfl
  | R => rw [hone hfit (of_decide_eq_true hstep)]; rfl
  | P => exact congrArg some ((edgeWord_of_bits _).trans (congrArg (FmtWord.mk .P) hbits))
  | H => exact congrArg some ((handoffWord_of_bits _).trans (congrArg (FmtWord.mk .H) hbits))
  | B => exact congrArg some ((busWord_of_bits _).trans (congrArg (FmtWord.mk .B) hbits))

/-- The operation an event performs is the one its word decodes to. -/
theorem operationOf_of_present {e : Event} {s : State} {w : FmtWord} {i : Instr} (hp : present e s = some w)
    (hd : decode w = .ok i) : operationOf e s = some i := by
  simp only [operationOf, hp, hd]

theorem decodeTableWord_eq_some_iff {nbits b : Nat} {i : Instr} :
    decodeTableWord nbits b = some i ↔ ∃ f, fmtOfBits nbits = some f ∧ decode ⟨f, b⟩ = .ok i := by
  rw [decodeTableWord]
  cases fmtOfBits nbits with
  | none => simp
  | some f => cases hd : decode ⟨f, b⟩ <;> simp [hd]

end Sys2Proof.Machine
end

section
/-! SUPPORT. The edges a run detects (30_encoding.md R62, 40_counter_and_capture.md R81). -/

namespace Sys2Proof.Machine

/-- A sample is a step whatever the line did, and it performs the operation of the two levels (30_encoding.md R62). -/
theorem perform_sample (l : Bool) (s : State) : perform (.sample l) s = exec (edgeOperation s.echoSync l) s := by
  rw [perform_of_present rfl (decode_edgeWord s.echoSync l), exec_eq_afterOp]
  rfl

theorem edgeOperation_eq (prev lvl : Bool) :
    edgeOperation prev lvl =
      if prev = lvl then (if lvl then .noEdgeHigh else .noEdgeLow) else (if lvl then .edgeRise else .edgeFall) := by
  cases prev <;> cases lvl <;> rfl

/-- The detector remembers the level sampled (10_state.md R22). -/
theorem turn_sample_echoSync (l : Bool) (s : State) : (turn (.sample l) s).echoSync = l := by
  by_cases h : l = s.echoSync
  · rw [turn, if_pos h, h]
  · rw [turn, if_neg h, followLine_echoSync]

theorem turn_handle_echoSync (s : State) : (turn .handle s).echoSync = s.echoSync := by
  cases hf : s.edgeFlag with
  | false => rw [turn_handle_idle hf]
  | true =>
    cases hp : s.pol with
    | false => rw [turn_handle_fall hf hp]; rfl
    | true => rw [turn_handle_rise hf hp]; rfl

theorem edgesDetected_append (is js : List Instr) :
    edgesDetected (is ++ js) = edgesDetected is ++ edgesDetected js := List.filterMap_append

/-- No bus operation detects an edge (30_encoding.md R64). -/
theorem edgesDetected_decodeBus (we : Bool) (a : Addr) (v : Word) : edgesDetected [decodeBus we a v] = [] := by
  have h := isBusOperation_decodeBus we a v
  generalize decodeBus we a v = i at h
  cases i with
  | edgeRise => cases h
  | edgeFall => cases h
  | _ => rfl

/-- A sample detects an edge exactly if its level is new (40_counter_and_capture.md R82 to R85). -/
theorem edgesDetected_edgeOperation (prev lvl : Bool) :
    edgesDetected [edgeOperation prev lvl] = if prev = lvl then [] else [lvl] := by
  cases prev <;> cases lvl <;> rfl

/-- The edges detected in one turn. -/
theorem edgesDetected_operationOf (e : Event) (s : State) :
    edgesDetected (operationOf e s).toList = if e = .sample (!s.echoSync) then [!s.echoSync] else [] := by
  rw [operationOf_eq]
  cases e with
  | tick => rfl
  | reset c => rfl
  | sample l =>
    rw [Option.toList_some, edgesDetected_edgeOperation]
    cases l <;> cases s.echoSync <;> rfl
  | handle => cases s.edgeFlag <;> cases s.pol <;> rfl
  | bus we a v => exact edgesDetected_decodeBus we a v
  | foreground =>
    cases s.fg.busRequest with
    | none => rfl
    | some q => exact edgesDetected_decodeBus q.1 q.2.1 q.2.2

/-- The last level follows the line: only a sample and a reset change it (10_state.md R22). -/
theorem turn_echoSync {e : Event} (hr : ∀ c, e ≠ .reset c) (s : State) :
    (turn e s).echoSync = if e = .sample (!s.echoSync) then !s.echoSync else s.echoSync := by
  rcases turn_kind e s with hq | ⟨c, rfl⟩ | rfl | ⟨rfl, -⟩
  · have hne : e ≠ .sample (!s.echoSync) := by
      rintro rfl
      cases h : s.echoSync <;> simp [calmAt, quietAt, h] at hq
    rw [(turn_calm rfl hq).echoSync, if_neg hne]
  · exact absurd rfl (hr c)
  · rw [turn_sample_echoSync, if_pos rfl]
  · exact turn_handle_echoSync s

/-- Each edge detected is a change from the level before it, the first one from the level the run starts with. -/
theorem edgesDetected_isChain {es : List Event} {s : State} (h : .reset ∉ operations es s) :
    List.IsChain (· ≠ ·) (s.echoSync :: edgesDetected (operations es s)) := by
  induction es generalizing s with
  | nil => exact .singleton _
  | cons e es ih =>
    rw [operations_cons, List.mem_append, not_or] at h
    obtain ⟨hnow, hlater⟩ := h
    have hr : ∀ c, e ≠ .reset c := by
      rintro c rfl
      exact hnow (by simp [operationOf_eq])
    have hrest := ih hlater
    rw [turn_echoSync hr] at hrest
    rw [operations_cons, edgesDetected_append, edgesDetected_operationOf]
    by_cases he : e = .sample (!s.echoSync)
    · rw [if_pos he] at hrest ⊢
      exact .cons_cons (Bool.not_ne_self _).symm hrest
    · rw [if_neg he] at hrest ⊢
      exact hrest

end Sys2Proof.Machine
end

section
/-! SUPPORT. The rest of the foreground agent's actions (42_bus_and_trigger.md R116). -/

namespace Sys2Proof.Machine

theorem turn_foreground_read_s {s : State} {a : Addr} {rest : List Action} (hw : s.fg.waiting = 0)
    (h : s.fg.todo = .read a .s :: rest) :
    turn .foreground s = withFg ⟨s.fg.prog, rest, 0, s.fg.d, memRead a s, s.fg.emitted⟩ (busRead a s) := by
  simp [turn, Foreground.busRequest, Foreground.advance, Foreground.latch, afterRequest, afterBus, withFg, hw, h]

theorem turn_foreground_clearOrEmit_clears {s : State} {rest : List Action} (hw : s.fg.waiting = 0)
    (h : s.fg.todo = .clearOrEmit :: rest) (hst : s.fg.st.getLsbD 3 = true) :
    turn .foreground s = withFg ⟨s.fg.prog, rest, 0, s.fg.d, s.fg.st, s.fg.emitted⟩ (memWrite addrStatus 0x0008 s) := by
  have hbit : s.fg.st[3] = true := hst
  simp [turn, Foreground.busRequest, Foreground.advance, afterRequest, afterBus, withFg, hw, h, hbit]

theorem turn_foreground_clearOrEmit_emits {s : State} {rest : List Action} (hw : s.fg.waiting = 0)
    (h : s.fg.todo = .clearOrEmit :: rest) (hst : s.fg.st.getLsbD 3 = false) :
    turn .foreground s = withFg ⟨s.fg.prog, rest, 0, s.fg.d, s.fg.st, s.fg.d :: s.fg.emitted⟩ s := by
  have hbit : s.fg.st[3] = false := hst
  simp [turn, Foreground.busRequest, Foreground.advance, afterRequest, withFg, hw, h, hbit]

end Sys2Proof.Machine
end

section
/-! PROOFS. What each agent's turn performs (30_encoding.md R60 to R65, R71). -/

namespace Sys2Proof.Machine

/-- Settles O6: each edge detected is a change from the level before it, so no two neighbours are alike. -/
theorem sampleSelectsTheEdgeOperation : Obligations.SampleSelectsTheEdgeOperation := by
  refine ⟨by decide, fun s l => ⟨?_, turn (.sample l) s, perform_eq_turn _ s, turn_sample_echoSync l s⟩, ?_⟩
  · rw [perform_sample, edgeOperation_eq]
  · exact fun es s h => (edgesDetected_isChain h).tail

/-- Settles O12: the handoff word's flag and polarity select the turn, and each leaves no event pending. -/
theorem handleRunsExactlyWhilePending : Obligations.HandleRunsExactlyWhilePending := by
  refine ⟨fun p c => ?_, fun s => ⟨fun hf hp => ?_, fun hf hp => ?_, fun hf => ?_, rfl, ?_⟩⟩
  · have h := decode_handoffWord false p c
    rwa [handoffWord, Bool.toNat_false, Nat.mul_zero, Nat.zero_add] at h
  · rw [perform_handle_pending hf, if_pos hp]
  · rw [perform_handle_pending hf, hp]
    rfl
  · rw [perform_eq_turn, turn_handle_idle hf]
    rfl
  · exact ⟨_, perform_eq_turn _ s, turn_handle_edgeFlag s⟩

/-- Settles O42: the word presented is the word the due event's agent sees. -/
theorem presentedTableWordIsRun : Obligations.PresentedTableWordIsRun := by
  intro s nbits b i h
  obtain ⟨f, hf, hd⟩ := decodeTableWord_eq_some_iff.1 h
  have hwf : FmtWord.wf ⟨f, b⟩ = true := (wf_iff_exists_decode _).2 ⟨i, hd⟩
  have hword : s.withFetchWord nbits b = presentWord s f b := by
    simp only [State.withFetchWord, hf, hwf, if_true]
  rw [hword]
  exact operationOf_of_present (present_presentWord hwf s) hd

/-- Settles O49, action by action. -/
theorem foregroundActionsDoWhatTheyName : Obligations.ForegroundActionsDoWhatTheyName := by
  intro s rest hw
  simp only [perform_eq_turn, Host.Outcome.next.injEq]
  refine ⟨fun a v h => ?_, fun a h => ?_, fun a h => ?_, fun n h => ?_, fun h => ?_, fun h hst => ?_, fun h hst => ?_⟩
  · simp [turn_foreground_write hw h, withFg, hw]
  · simp [turn_foreground_read hw h, withFg, busRead, hw]
  · simp [turn_foreground_read_s hw h, withFg, busRead, hw]
  · simp [turn_foreground_delay hw h, withFg]
  · simp [turn_foreground_emit hw h, withFg, hw]
  · simp [turn_foreground_clearOrEmit_clears hw h hst, memWrite_status, withFg, hw]
  · simp [turn_foreground_clearOrEmit_emits hw h hst, withFg, hw]

end Sys2Proof.Machine
end

section
/-! SUPPORT. Stretches of ticks, and the edges of the echo line with the latch free and with an event pending
(40_counter_and_capture.md R80, R82, R83, R86, R87). -/

namespace Sys2Proof.Machine

/-! ### The counter -/

theorem add_ofNat_eq (a : Word) (n : Nat) : a + BitVec.ofNat 16 n = BitVec.ofNat 16 ((a.toNat + n) % 65536) := by
  apply BitVec.eq_of_toNat_eq
  simp [BitVec.toNat_add]

/-- `n` ticks advance the counter by `n` and count `n` off the agent's delay, nothing else (R80, 42_bus_and_trigger.md R114). -/
theorem run_tickN (n : Nat) (s : State) :
    run (tickN n) s =
      { s with
        cnt := BitVec.ofNat 16 ((s.cnt.toNat + n) % 65536)
        fg := { s.fg with waiting := s.fg.waiting - n } } := by
  rw [← add_ofNat_eq]
  induction n generalizing s with
  | zero => apply State.ext <;> simp [tickN]
  | succ n ih =>
    have hcnt : s.cnt + 1 + BitVec.ofNat 16 n = s.cnt + BitVec.ofNat 16 (n + 1) := by
      rw [BitVec.ofNat_add, add_assoc, add_comm (1 : Word)]
      rfl
    have hwait : s.fg.waiting - 1 - n = s.fg.waiting - (n + 1) := by omega
    have hrun : run (tickN (n + 1)) s = run (tickN n) (turn .tick s) := rfl
    simp only [hrun, ih, turn, Foreground.onTick, hcnt, hwait]

/-! ### The edges -/

/-- An edge to level `l` offers its capture, and the detector's memory follows the line (R82, R83). -/
theorem exec_edge (l : Bool) (s : State) :
    exec (edgeOperation (!l) l) s = .next (followLine l (captureEvent l s)) := by
  cases l <;> rfl

theorem exec_edge_free (l : Bool) {s : State} (hf : s.edgeFlag = false) :
    exec (edgeOperation (!l) l) s = .next { s with capt := s.cnt, pol := l, edgeFlag := true, echoSync := l } := by
  rw [exec_edge, captureEvent_free l s hf, followLine]

theorem exec_edge_lost (l : Bool) {s : State} (hf : s.edgeFlag = true) :
    exec (edgeOperation (!l) l) s = .next { s with echoSync := l } := by
  rw [exec_edge, captureEvent_pending l s hf, followLine]

/-- A sample at the standing level changes nothing (R84, R85). -/
theorem perform_sample_standing {l : Bool} {s : State} (h : s.echoSync = l) : perform (.sample l) s = .next s := by
  rw [perform_eq_turn, turn, if_pos h.symm]

theorem ne_sample_of_calm {pending l : Bool} {e : Event} (h : calmAt pending l e = true) : e ≠ .sample (!l) := by
  rintro rfl
  cases l <;> simp [calmAt, quietAt] at h

/-- With the latch free, a turn sets the flag exactly if it is a sample at the level the line did not have (R86). -/
theorem turn_edgeFlag_of_free {s : State} (hf : s.edgeFlag = false) (e : Event) :
    (turn e s).edgeFlag = true ↔ e = .sample (!s.echoSync) := by
  rcases turn_kind e s with hq | ⟨c, rfl⟩ | rfl | ⟨rfl, hpending⟩
  · simp [(turn_calm rfl hq).edgeFlag, hf, ne_sample_of_calm hq]
  · simp [turn, afterOp]
  · simp [turn_sample_free hf (Bool.not_not _).symm]
  · simp [turn_handle_edgeFlag]

end Sys2Proof.Machine
end

section
/-! PROOFS. The counter, the edge detector and the capture latch (40_counter_and_capture.md R80 to R86). -/

namespace Sys2Proof.Machine

/-- Settles O5: the ticks add up by `run_tickN`, and who else writes the counter is `eachElementHasItsWriters`. -/
theorem tickCountsModulo65536 : Obligations.TickCountsModulo65536 := by
  have htick : ∀ s : State, exec .tick s = .next { s with cnt := BitVec.ofNat 16 ((s.cnt.toNat + 1) % 65536) } :=
    fun s => by rw [← add_ofNat_eq]; rfl
  have hticks : ∀ (n : Nat) (s : State), ∃ t, runEvents (tickN n) s = .next t ∧
      t.SameElements { s with cnt := BitVec.ofNat 16 ((s.cnt.toNat + n) % 65536) } := fun n s => by
    refine ⟨_, runEvents_eq_run _ s, ?_⟩
    rw [run_tickN]
    exact ⟨rfl, rfl, rfl, rfl, rfl, rfl, rfl, rfl, rfl, rfl⟩
  refine ⟨decode_tickWord, htick, fun s h => ?_, hticks, fun n s hn => ?_, fun i s t h hcnt => ?_⟩
  · rw [htick, h]; rfl
  · have hwrap : BitVec.ofNat 16 ((s.cnt.toNat + n) % 65536) = s.cnt := by
      rw [hn, Nat.add_mod_right, Nat.mod_eq_of_lt s.cnt.isLt, BitVec.ofNat_toNat, BitVec.setWidth_eq]
    have h := hticks n s
    rwa [hwrap] at h
  · exact (eachElementHasItsWriters i s t h).1 hcnt

/-- Settles O11: the sample that sets the flag is one at the other level, and it captures as `turn_sample_free` says. -/
theorem captureRecordsCounterAndPolarity : Obligations.CaptureRecordsCounterAndPolarity := by
  intro e s hf
  have hset := turn_edgeFlag_of_free hf e
  refine ⟨turn e s, perform_eq_turn e s, ?_, fun h => ?_⟩
  · rw [hset]
    simp [← Bool.eq_not]
  · rw [hset.1 h, turn_sample_free hf (Bool.not_not _).symm]
    exact ⟨rfl, rfl, rfl⟩

/-- Settles O7: the edge to level 1, with the latch free and with an event pending. -/
theorem edgeRiseCapturesOrIsLost : Obligations.EdgeRiseCapturesOrIsLost := by
  refine ⟨decode_edgeWord false true, fun s => ⟨fun h => ?_, exec_edge_free true, exec_edge_lost true⟩⟩
  rw [perform_sample, h]
  rfl

/-- Settles O8: the edge to level 0, with the latch free and with an event pending. -/
theorem edgeFallCapturesOrIsLost : Obligations.EdgeFallCapturesOrIsLost := by
  refine ⟨decode_edgeWord true false, fun s => ⟨fun h => ?_, exec_edge_free false, exec_edge_lost false⟩⟩
  rw [perform_sample, h]
  rfl

/-- Settles O9: neither operation writes anything, and a sample at the standing level selects one of them. -/
theorem samplesWithoutAnEdgeChangeNothing : Obligations.SamplesWithoutAnEdgeChangeNothing :=
  ⟨decode_edgeWord false false, decode_edgeWord true true, fun s =>
    ⟨exec_eq_afterOp .noEdgeLow s, exec_eq_afterOp .noEdgeHigh s, perform_sample_standing, perform_sample_standing⟩⟩

end Sys2Proof.Machine
end

section
/-! SUPPORT. One edge from its sample to its handling, and the time between two captures (40_counter_and_capture.md R82, R83, R88,
41_distance_pipeline.md R90 to R97). -/

namespace Sys2Proof.Machine

/-! ### The arithmetic -/

/-- Two counter values `n` ticks apart differ by `n` modulo 65536, wrap or no wrap (40_counter_and_capture.md R88). -/
theorem sub16_toNat_of_elapsed {a b : Word} {n : Nat} (h : b.toNat = (a.toNat + n) % 65536) :
    (sub16 b a).toNat = n % 65536 := by
  have ha := a.isLt
  rw [sub16_toNat, h]
  omega

theorem udivDivisor_mono {a b : Word} (h : a.toNat ≤ b.toNat) : (udivDivisor a).toNat ≤ (udivDivisor b).toNat := by
  rw [udivDivisor_toNat, udivDivisor_toNat]
  exact Nat.div_le_div_right h

/-! ### The handlers -/

/-- The edge not awaited is the one that leaves the edge machine where it stands (41_distance_pipeline.md R99). -/
theorem unawaited_eq (r : Bool) (e : EdgeState) : unawaited r e = (e == edgeStateAfter r) := by
  cases r <;> cases e <;> rfl

theorem exec_handleRise (c : Word) (s : State) :
    exec (.handleRise c) s =
      .next { s with
        seqErr := s.seqErr || (s.edgeState == .awaitingFall)
        riseTs := c
        edgeState := .awaitingFall
        edgeFlag := false } := by
  rw [exec_eq_afterOp, afterOp, advanceEdgeMachine, seqErrAfter, unawaited_eq]
  rfl

theorem exec_handleFall (c : Word) (s : State) :
    exec (.handleFall c) s =
      .next { s with
        seqErr := s.seqErr || (s.edgeState == .awaitingRise)
        dist := computeDistance s.riseTs c
        edgeState := .awaitingRise
        edgeFlag := false } := by
  rw [exec_eq_afterOp, afterOp, advanceEdgeMachine, seqErrAfter, unawaited_eq]
  rfl

/-! ### An edge captured and handled -/

theorem turn_sample_edge {l : Bool} {s : State} (hl : s.echoSync = !l) :
    turn (.sample l) s = followLine l (captureEvent l s) := by
  cases l <;> simp [turn, hl]

theorem turn_handle_pending {s : State} (hf : s.edgeFlag = true) :
    turn .handle s = afterOp (if s.pol then .handleRise s.capt else .handleFall s.capt) s := by
  have h := perform_handle_pending hf
  rw [perform_eq_turn, exec_eq_afterOp] at h
  exact Host.Outcome.next.inj h

/-- An edge sampled with the latch free is handled, however many quiet turns later, with its own polarity and the counter value of its
sample (40_counter_and_capture.md R87). -/
theorem run_edge_handled {l : Bool} {s : State} {q : List Event} (hf : s.edgeFlag = false) (hl : s.echoSync = !l)
    (hq : ∀ e ∈ q, quietAt l e = true) :
    ∃ u, Quiet (followLine l (captureEvent l s)) u (ticksIn q) ∧
      run (.sample l :: q ++ [.handle]) s = afterOp (if l then .handleRise s.cnt else .handleFall s.cnt) u := by
  have hu := run_quiet (s := followLine l (captureEvent l s)) rfl hq
  generalize hquiet : run q (followLine l (captureEvent l s)) = u at hu
  have hflag : u.edgeFlag = true := by simpa using hu.edgeFlag
  have hcapt : u.capt = s.cnt := by simpa [hf] using hu.capt
  have hpol : u.pol = l := by simpa [hf] using hu.pol
  refine ⟨u, hu, ?_⟩
  calc run (.sample l :: q ++ [.handle]) s
    _ = turn .handle (run q (turn (.sample l) s)) := run_append _ _ s
    _ = turn .handle u := by rw [turn_sample_edge hl, hquiet]
    _ = afterOp (if l then .handleRise s.cnt else .handleFall s.cnt) u := by rw [turn_handle_pending hflag, hcapt, hpol]

/-- Handling an edge leaves a sequence error only where one stood or the edge was not the one awaited (10_state.md R30). -/
theorem seqErrAfter_quiet {l : Bool} {s u : State} {n : Nat} (hu : Quiet (followLine l (captureEvent l s)) u n)
    (h : seqErrAfter l u = true) : s.seqErr = true ∨ s.edgeState = edgeStateAfter l := by
  rw [seqErrAfter, unawaited_eq, hu.edgeState, Bool.or_eq_true, beq_iff_eq] at h
  exact h.imp (fun hs => by simpa using hu.seqErr hs) (fun he => by simpa using he)

/-- What a rise sampled with the latch free, `n` ticks and its handling leave, wherever in the `n` ticks it is handled. -/
structure RiseHandled (s t : State) (n : Nat) : Prop where
  cnt : t.cnt.toNat = (s.cnt.toNat + n) % 65536
  echoSync : t.echoSync = true
  edgeFlag : t.edgeFlag = false
  riseTs : t.riseTs = s.cnt
  edgeState : t.edgeState = .awaitingFall
  seqErr : t.seqErr = true → s.seqErr = true ∨ s.edgeState = .awaitingFall

theorem RiseHandled.quiet {s t u : State} {m n : Nat} (h : RiseHandled s t m) (k : Quiet t u n) :
    RiseHandled s u (m + n) where
  cnt := by rw [k.cnt, h.cnt]; omega
  echoSync := k.echoSync.trans h.echoSync
  edgeFlag := k.edgeFlag.trans h.edgeFlag
  riseTs := k.riseTs.trans h.riseTs
  edgeState := k.edgeState.trans h.edgeState
  seqErr := fun hu => h.seqErr (k.seqErr hu)

theorem run_riseHandled {s : State} {q : List Event} (hf : s.edgeFlag = false) (hl : s.echoSync = false)
    (hq : ∀ e ∈ q, quietAt true e = true) : RiseHandled s (run (.sample true :: q ++ [.handle]) s) (ticksIn q) := by
  obtain ⟨u, hu, hrun⟩ := run_edge_handled (l := true) hf hl hq
  rw [hrun]
  refine ⟨?_, hu.echoSync, rfl, rfl, rfl, fun h => seqErrAfter_quiet hu h⟩
  simpa [afterOp] using hu.cnt

/-- What a fall sampled with the latch free and its handling leave. -/
structure FallHandled (s t : State) : Prop where
  echoSync : t.echoSync = false
  edgeFlag : t.edgeFlag = false
  capt : t.capt = s.cnt
  riseTs : t.riseTs = s.riseTs
  dist : t.dist = computeDistance s.riseTs s.cnt
  edgeState : t.edgeState = .awaitingRise
  seqErr : t.seqErr = true → s.seqErr = true ∨ s.edgeState = .awaitingRise

theorem run_fallHandled {s : State} {q : List Event} (hf : s.edgeFlag = false) (hl : s.echoSync = true)
    (hq : ∀ e ∈ q, quietAt false e = true) : FallHandled s (run (.sample false :: q ++ [.handle]) s) := by
  obtain ⟨u, hu, hrun⟩ := run_edge_handled (l := false) hf hl hq
  have hrise : u.riseTs = s.riseTs := by simpa using hu.riseTs
  rw [hrun]
  refine ⟨hu.echoSync, rfl, ?_, hrise, ?_, rfl, fun h => seqErrAfter_quiet hu h⟩
  · simpa [afterOp, hf] using hu.capt
  · simp [afterOp, hrise]

end Sys2Proof.Machine
end

section
/-! PROOFS. The distance pipeline (41_distance_pipeline.md R91 to R99). -/

namespace Sys2Proof.Machine

/-- Settles O19: the fall meets the edge machine awaiting it, with the counter as many ticks after `RISE_TS` as the pulse had. -/
theorem pulseIsMeasuredInTicks : Obligations.PulseIsMeasuredInTicks := by
  intro s q1 q2 q3 hf hl hq1 hq2 hq3
  have hrise := run_riseHandled hf hl hq1
  have hhigh := hrise.quiet (run_quiet hrise.echoSync hq2)
  have hfall := run_fallHandled hhigh.edgeFlag hhigh.echoSync hq3
  have hts := hfall.riseTs.trans hhigh.riseTs
  have helapsed := sub16_toNat_of_elapsed hhigh.cnt
  have hdist := congrArg BitVec.toNat hfall.dist
  rw [hhigh.riseTs, computeDistance, udivDivisor_toNat, helapsed] at hdist
  have hrun : run (.sample true :: q1 ++ .handle :: q2 ++ .sample false :: q3 ++ [.handle]) s =
      run (.sample false :: q3 ++ [.handle]) (run q2 (run (.sample true :: q1 ++ [.handle]) s)) := by
    rw [← run_append, ← run_append]
    simp
  refine ⟨_, (runEvents_eq_run _ s).trans (congrArg _ hrun), hts, ?_, hdist, fun hk => ?_, hfall.edgeState, hfall.edgeFlag,
    hfall.echoSync, fun hs ht => ?_⟩
  · rw [hfall.capt, hts, helapsed]
  · rw [hdist, Nat.mod_eq_of_lt (by omega)]
  · have hv := (hfall.seqErr ht).resolve_right (by rw [hhigh.edgeState]; decide)
    exact (hhigh.seqErr hv).resolve_right (by rw [hs]; decide)

/-- Settles O18: monotone because the division is, shift invariant because the subtraction is (`computeDistance_shift`). -/
theorem distanceIsMonotoneAndShiftInvariant : Obligations.DistanceIsMonotoneAndShiftInvariant :=
  ⟨fun _ _ _ _ h => udivDivisor_mono h, computeDistance_shift, fun _ _ => rfl, fun c s => ⟨_, exec_handleFall c s, rfl⟩⟩

/-- Settles O13: the words are handoff words with flag and polarity 1, and `exec_handleRise` is the whole effect. -/
theorem handleRiseStoresTheTimestamp : Obligations.HandleRiseStoresTheTimestamp :=
  ⟨decode_handoffWord true true, fun s => (handleRunsExactlyWhilePending.2 s).1, exec_handleRise⟩

/-- Settles O14: the words are handoff words with flag 1 and polarity 0; the distance is `computeDistance_toNat`. -/
theorem handleFallComputesTheDistance : Obligations.HandleFallComputesTheDistance := by
  refine ⟨decode_handoffWord true false, fun s => (handleRunsExactlyWhilePending.2 s).2.1, fun c s => ?_⟩
  rw [exec_handleFall, ← computeDistance_toNat, BitVec.ofNat_toNat, BitVec.setWidth_eq]

/-- Settles O15: four rows of the two handlers, and `edgeStateStep` for every other operation. -/
theorem edgeMachineFollowsItsTable : Obligations.EdgeMachineFollowsItsTable := by
  refine ⟨fun c s h => ⟨_, exec_handleRise c s, ?_⟩, fun c s h => ⟨_, exec_handleFall c s, ?_⟩,
    fun c s h => ⟨_, exec_handleRise c s, ?_⟩, fun c s h => ⟨_, exec_handleFall c s, ?_⟩,
    fun s => ⟨_, exec_eq_afterOp .reset s, rfl⟩, fun i s t hexec hpol hreset => ?_⟩
  · simp [h]
  · simp [h]
  · simp [h]
  · simp [h]
  · rw [exec_eq_afterOp, Host.Outcome.next.injEq] at hexec
    rw [← hexec, afterOp_edgeState, edgeStateStep, hpol]
    exact if_neg hreset

/-- Settles O16: the wrap and the uniqueness are arithmetic on `sub16_toNat`; the bounds of the 16-bit words decide them. -/
theorem subtractionIsModulo65536 : Obligations.SubtractionIsModulo65536 := by
  refine ⟨fun a b => ?_, fun a b r => ?_, by decide, by decide, by decide, by decide, fun x => ?_⟩
  · have ha := a.isLt
    have hb := b.isLt
    rw [sub16_toNat]
    omega
  · have ha := a.isLt
    have hb := b.isLt
    have hr := r.isLt
    rw [← BitVec.toNat_inj, sub16_toNat]
    omega
  · rw [sub16_eq_sub, sub_self]

/-- Settles O17: the quotient is `Nat` division (`udivDivisor_toNat`), bounded because the word is below 65536. -/
theorem divisionIsTheFloor : Obligations.DivisionIsTheFloor := by
  refine ⟨fun a => ?_, fun a q hlo hhi => ?_, by decide, by decide, by decide⟩
  · have ha := a.isLt
    rw [udivDivisor_toNat]
    omega
  · rw [udivDivisor_toNat]
    omega

end Sys2Proof.Machine
end

section
/-! SUPPORT. The foreground agent's turns: those in which a delay holds it, and those in which it does its next action and goes on to
the one after it (42_bus_and_trigger.md R113, R114). -/

namespace Sys2Proof.Machine

/-! ### What the foreground agent performs -/

theorem foregroundOperations_cons (e : Event) (es : List Event) (s : State) :
    foregroundOperations (e :: es) s =
      (if e = .foreground then (operationOf e s).toList else []) ++ foregroundOperations es (turn e s) := by
  rw [foregroundOperations, history_cons, List.filterMap_append]
  by_cases he : e = .foreground <;> cases operationOf e s <;> simp [he, foregroundOperations]

/-- A delay holds the agent's bus operations (R114). -/
theorem operationOf_foreground_waiting {s : State} (h : s.fg.waiting ≠ 0) : operationOf .foreground s = none := by
  rw [operationOf_eq]
  simp [Foreground.busRequest, h]

/-- A turn that is another agent's, or comes during a delay, adds nothing to the foreground agent's operations. -/
theorem foregroundOperations_cons_of_held {e : Event} {s : State} (h : e ≠ .foreground ∨ s.fg.waiting ≠ 0)
    (es : List Event) : foregroundOperations (e :: es) s = foregroundOperations es (turn e s) := by
  rw [foregroundOperations_cons]
  by_cases he : e = .foreground
  · subst he
    rw [operationOf_foreground_waiting (h.resolve_left (fun h0 => h0 rfl))]
    rfl
  · rw [if_neg he, List.nil_append]

/-- Over a held stretch the foreground agent performs no operation. -/
theorem foregroundOperations_of_held {es : List Event} {s : State} (h : turnsHeld s.fg.waiting es = true) :
    foregroundOperations es s = [] := by
  induction es generalizing s with
  | nil => rfl
  | cons e es ih =>
    obtain ⟨hnow, hlater⟩ := turnsHeld_cons.1 h
    rw [foregroundOperations_cons_of_held hnow]
    exact ih (by rw [turn_fg_of_held hnow]; exact hlater)

/-- Fewer ticks than a delay owes do not end it. -/
theorem turnsHeld_of_ticksIn_lt {es : List Event} {n : Nat} (h : ticksIn es < n) : turnsHeld n es = true := by
  induction es generalizing n with
  | nil => rfl
  | cons e es ih =>
    rw [ticksIn_cons] at h
    exact turnsHeld_cons.2 ⟨.inr (by omega), ih (by omega)⟩

/-! ### The agent's place in its program -/

/-- In the turn in which it does an action the agent goes on to the next one, and what it has emitted stays emitted (R113). -/
theorem Foreground.advance_acting {f : Foreground} {x : Action} {rest : List Action} (hw : f.waiting = 0)
    (ht : f.todo = x :: rest) (r : Option Word) :
    (f.advance r).rest = rest ∧ f.emitted.length ≤ (f.advance r).emitted.length := by
  cases x with
  | write a v => simp [Foreground.advance, hw, ht]
  | read a dst => cases dst <;> simp [Foreground.advance, Foreground.latch, hw, ht]
  | delay n => simp [Foreground.advance, hw, ht]
  | emit => simp [Foreground.advance, hw, ht]
  | clearOrEmit => by_cases hst : f.st[3] = true <;> simp [Foreground.advance, hw, ht, hst]

theorem turn_fg_prog (e : Event) (s : State) : (turn e s).fg.prog = s.fg.prog := by
  by_cases he : e = .foreground
  · subst he
    exact (s.fg.advance_place _).1
  · rw [turn_fg_of_ne_foreground he]

/-- The agent runs `RUN_CYCLE` and stands somewhere in it (R113). -/
structure Foreground.InRunCycle (f : Foreground) : Prop where
  prog : f.prog = runCycle
  rest : f.rest <:+ f.prog

theorem Foreground.InRunCycle.running {f : Foreground} (h : f.InRunCycle) : f.Running := ⟨.inl h.prog, h.rest⟩

theorem Foreground.InRunCycle.turn {s : State} (h : s.fg.InRunCycle) (e : Event) : (turn e s).fg.InRunCycle :=
  ⟨(turn_fg_prog e s).trans h.prog, (turn_running h.running e).2⟩

/-- "Runs forever in a loop with no terminal state" (R113): there is always a next action. -/
theorem Foreground.InRunCycle.todo_ne_nil {f : Foreground} (h : f.InRunCycle) : f.todo ≠ [] := by
  cases hr : f.rest with
  | nil => rw [Foreground.todo, hr, h.prog]; decide
  | cons x r => rw [todo_of_rest hr]; exact List.cons_ne_nil x r

theorem Foreground.InRunCycle.todo_suffix {f : Foreground} (h : f.InRunCycle) : f.todo <:+ runCycle := by
  rw [← h.prog]
  exact h.running.todo_suffix

end Sys2Proof.Machine
end

section
/-! SUPPORT. The operations the foreground agent performs from any place in `RUN_CYCLE` (42_bus_and_trigger.md R113). -/

namespace Sys2Proof.Machine

/-- The bus operations an action of `RUN_CYCLE` stands for. (`clearOrEmit` is no action of it, and what it performs depends on what was
read: R116.) -/
def actionOperations (x : Action) : List Instr :=
  match x with
  | .write a v   => [decodeWrite a v]
  | .read a _    => [decodeRead a]
  | .delay _     => []
  | .emit        => []
  | .clearOrEmit => []

/-- In its turn the agent performs the operation of its next action. -/
theorem operationOf_foreground_acting {s : State} {x : Action} {rest : List Action} (hw : s.fg.waiting = 0)
    (ht : s.fg.todo = x :: rest) (hx : x ≠ .clearOrEmit) :
    (operationOf .foreground s).toList = actionOperations x := by
  rw [operationOf_eq]
  cases x with
  | clearOrEmit => exact absurd rfl hx
  | write a v => simp [Foreground.busRequest, hw, ht, actionOperations, decodeBus]
  | read a dst => simp [Foreground.busRequest, hw, ht, actionOperations, decodeBus]
  | delay n => simp [Foreground.busRequest, hw, ht, actionOperations]
  | emit => simp [Foreground.busRequest, hw, ht, actionOperations]

/-- The operations of `n` iterations of `RUN_CYCLE`. -/
def cycleOperations (n : Nat) : List Instr := (List.replicate n [.trigAssert, .trigDeassert, .rdDist]).flatten

theorem cycleOperations_succ (n : Nat) :
    cycleOperations (n + 1) = runCycle.flatMap actionOperations ++ cycleOperations n := rfl

/-- From any place in `RUN_CYCLE`, the agent performs the operations of the rest of the iteration and then those of whole iterations, as
far as the run goes. -/
theorem foregroundOperations_prefix {s : State} (h : s.fg.InRunCycle) (es : List Event) :
    ∃ n, foregroundOperations es s <+: s.fg.rest.flatMap actionOperations ++ cycleOperations n := by
  induction es generalizing s with
  | nil => exact ⟨0, List.nil_prefix⟩
  | cons e es ih =>
    obtain ⟨n, hn⟩ := ih (h.turn e)
    by_cases hheld : e ≠ .foreground ∨ s.fg.waiting ≠ 0
    · rw [turn_fg_of_held hheld] at hn
      exact ⟨n, by rwa [foregroundOperations_cons_of_held hheld]⟩
    · obtain ⟨rfl, hw⟩ : e = .foreground ∧ s.fg.waiting = 0 := by simpa using hheld
      obtain ⟨x, rest, ht⟩ := List.exists_cons_of_ne_nil h.todo_ne_nil
      have hx : x ≠ .clearOrEmit :=
        (by decide : ∀ y ∈ runCycle, y ≠ .clearOrEmit) x (h.todo_suffix.subset (by simp [ht]))
      have hrest : (turn .foreground s).fg.rest = rest := (Foreground.advance_acting hw ht _).1
      have htodo : foregroundOperations (.foreground :: es) s <+:
          s.fg.todo.flatMap actionOperations ++ cycleOperations n := by
        rw [hrest] at hn
        rw [foregroundOperations_cons, if_pos rfl, operationOf_foreground_acting hw ht hx, ht, List.flatMap_cons,
          List.append_assoc]
        exact (List.prefix_append_right_inj _).2 hn
      cases hr : s.fg.rest with
      | nil =>
        rw [Foreground.todo, hr, h.prog, ← cycleOperations_succ] at htodo
        exact ⟨n + 1, htodo⟩
      | cons y r =>
        rw [todo_of_rest hr] at htodo
        exact ⟨n, htodo⟩

end Sys2Proof.Machine
end

section
/-! SUPPORT. `RUN_CYCLE` does not block (42_bus_and_trigger.md R113; 00_scope.md R14): in a fair execution the agent comes to its next
action, and so, action by action, to its next `EMIT`. -/

namespace Sys2Proof.Machine

theorem turn_emitted_length_le (e : Event) (s : State) :
    s.fg.emitted.length ≤ (turn e s).fg.emitted.length := by
  by_cases hheld : e ≠ .foreground ∨ s.fg.waiting ≠ 0
  · rw [turn_fg_of_held hheld]
  · obtain ⟨rfl, hw⟩ : e = .foreground ∧ s.fg.waiting = 0 := by simpa using hheld
    cases ht : s.fg.todo with
    | nil => simp [turn, Foreground.advance, hw, ht]
    | cons x rest => exact (Foreground.advance_acting hw ht _).2

section execution
variable {ev : Nat → Event} {st : Nat → State}

/-- In an execution in which the agent starts in `RUN_CYCLE` it stays in it. -/
theorem IsExecution.inRunCycle (h : IsExecution ev st) (h0 : (st 0).fg.InRunCycle) (n : Nat) :
    (st n).fg.InRunCycle := by
  induction n with
  | zero => exact h0
  | succ n ih => rw [h.succ n]; exact ih.turn (ev n)

theorem IsExecution.emitted_length_le (h : IsExecution ev st) {n m : Nat} (hnm : n ≤ m) :
    (st n).fg.emitted.length ≤ (st m).fg.emitted.length := by
  induction m, hnm using Nat.le_induction with
  | base => exact le_rfl
  | succ m _ ih => rw [h.succ m]; exact ih.trans (turn_emitted_length_le (ev m) (st m))

/-- The agent does an action in this turn: it is its turn, and no delay holds it. -/
def Acts (ev : Nat → Event) (st : Nat → State) (m : Nat) : Prop := ev m = .foreground ∧ (st m).fg.waiting = 0

/-- Until it acts, the agent keeps its place and its delay does not grow. -/
theorem IsExecution.fg_of_not_acts (h : IsExecution ev st) {n m : Nat} (hnm : n ≤ m)
    (hno : ∀ j, n ≤ j → j < m → ¬ Acts ev st j) :
    (st m).fg.todo = (st n).fg.todo ∧ (st m).fg.waiting ≤ (st n).fg.waiting := by
  induction m, hnm using Nat.le_induction with
  | base => exact ⟨rfl, le_rfl⟩
  | succ m hnm ih =>
    obtain ⟨htodo, hle⟩ := ih (fun j h1 h2 => hno j h1 (Nat.lt_succ_of_lt h2))
    have hheld : ev m ≠ .foreground ∨ (st m).fg.waiting ≠ 0 := not_and_or.1 (hno m hnm m.lt_succ_self)
    rw [h.succ m, turn_fg_of_held hheld]
    exact ⟨htodo, (Nat.sub_le _ _).trans hle⟩

/-- The agent acts again and again: its delay ends, it stays ended, and the agent's turn comes. -/
theorem IsExecution.exists_acts (h : IsExecution ev st) (htick : TickFair ev) (hfg : ForegroundFair ev) (n : Nat) :
    ∃ m, n ≤ m ∧ Acts ev st m := by
  by_contra hnone
  have hno : ∀ j, n ≤ j → ¬ Acts ev st j := fun j hj hact => hnone ⟨j, hj, hact⟩
  obtain ⟨k, hk, hended⟩ := delayEventuallyEnds ev st h htick n
  obtain ⟨m, hm, hturn⟩ := hfg k
  have hle := (h.fg_of_not_acts hm (fun j hj _ => hno j (hk.trans hj))).2
  exact hno m (hk.trans hm) ⟨hturn, by omega⟩

/-- The next action the agent does is the one that is due. -/
theorem IsExecution.exists_next_act (h : IsExecution ev st) (htick : TickFair ev) (hfg : ForegroundFair ev) (n : Nat) :
    ∃ m, n ≤ m ∧ Acts ev st m ∧ (st m).fg.todo = (st n).fg.todo := by
  classical
  have hex := h.exists_acts htick hfg n
  obtain ⟨hm, hact⟩ := Nat.find_spec hex
  exact ⟨_, hm, hact, (h.fg_of_not_acts hm (fun j hj hlt hj' => Nat.find_min hex hlt ⟨hj, hj'⟩)).1⟩

/-- An agent with an `EMIT` before it comes to it, by induction on the actions before it. -/
theorem IsExecution.exists_emits (h : IsExecution ev st) (htick : TickFair ev) (hfg : ForegroundFair ev)
    {todo : List Action} {n : Nat} (ht : (st n).fg.todo = todo) (hemit : .emit ∈ todo) :
    ∃ m, n ≤ m ∧ (st n).fg.emitted.length < (st m).fg.emitted.length := by
  induction todo generalizing n with
  | nil => cases hemit
  | cons x rest ih =>
    obtain ⟨m, hm, ⟨hturn, hw⟩, htodo⟩ := h.exists_next_act htick hfg n
    rw [ht] at htodo
    have hle := h.emitted_length_le hm
    have hnext : st (m + 1) = turn .foreground (st m) := hturn ▸ h.succ m
    rcases List.mem_cons.1 hemit with rfl | hlater
    · refine ⟨m + 1, hm.trans m.le_succ, ?_⟩
      rw [hnext, turn_foreground_emit hw htodo]
      exact Nat.lt_succ_of_le hle
    · obtain ⟨y, r, rfl⟩ := List.exists_cons_of_ne_nil (List.ne_nil_of_mem hlater)
      have hrest : (st (m + 1)).fg.rest = y :: r := by
        rw [hnext]
        exact (Foreground.advance_acting hw htodo _).1
      obtain ⟨k, hk, hlt⟩ := ih (todo_of_rest hrest) hlater
      exact ⟨k, by omega, (h.emitted_length_le (hm.trans m.le_succ)).trans_lt hlt⟩

end execution

/-- Every iteration ends with `EMIT`, so from every place in it one is still to come. -/
theorem Foreground.InRunCycle.emit_mem_todo {f : Foreground} (h : f.InRunCycle) : .emit ∈ f.todo :=
  (by decide : ∀ l ∈ runCycle.tails, l ≠ [] → .emit ∈ l) f.todo ((List.mem_tails _ _).2 h.todo_suffix) h.todo_ne_nil

end Sys2Proof.Machine
end

section
/-! PROOFS. `RUN_CYCLE` over whole runs and executions (42_bus_and_trigger.md R113; 00_scope.md R14). -/

namespace Sys2Proof.Machine

/-- Settles O51: at the start of `RUN_CYCLE` the rest of the iteration is a whole iteration. -/
theorem runCyclePerformsItsThreeOperations : Obligations.RunCyclePerformsItsThreeOperations := by
  intro es s hprog hrest
  have h : s.fg.InRunCycle := ⟨hprog, by rw [hprog, hrest]⟩
  obtain ⟨n, hn⟩ := foregroundOperations_prefix h es
  rw [hrest, ← cycleOperations_succ] at hn
  exact ⟨n + 1, hn⟩

/-- Settles O56: the agent stays in `RUN_CYCLE`, where an `EMIT` is always still to come. -/
theorem cycleNeverBlocks : Obligations.CycleNeverBlocks := by
  intro ev st hex htick hfg hprog hrest n
  have h0 : (st 0).fg.InRunCycle := ⟨hprog, by rwa [hprog]⟩
  exact hex.exists_emits htick hfg rfl (hex.inRunCycle h0 n).emit_mem_todo

end Sys2Proof.Machine
end

section
/-! SUPPORT. One iteration of `RUN_CYCLE`, cut at the agent's acting turns (42_bus_and_trigger.md R113 to R115): the agent, the trigger pin
(R112), and what an echo in the wait leaves (41_distance_pipeline.md R97). -/

namespace Sys2Proof.Machine

/-! ### The agent, action by action -/

/-- No delay runs, the agent's next actions are `todo`, and it has emitted `out`. -/
structure AgentAt (todo : List Action) (out : List Word) (s : State) : Prop where
  waiting : s.fg.waiting = 0
  todo : s.fg.todo = todo
  emitted : s.fg.emitted = out

section stages
variable {s : State} {q : List Event} {x : Action} {rest : List Action} {out : List Word}

/-- After an acting turn and a held stretch that outlasts the delay it started, if any, the agent is ready for its next action, with the
variables as the turn left them. -/
theorem agentAt_run_foreground {f : Foreground} (hturn : (turn .foreground s).fg = f) (hrest : f.rest = x :: rest)
    (hout : f.emitted = out) (hq : turnsHeld f.waiting q = true) (hend : f.waiting ≤ ticksIn q) :
    AgentAt (x :: rest) out (run (.foreground :: q) s) ∧ (run (.foreground :: q) s).fg.d = f.d := by
  subst hturn
  rw [run_cons]
  have hfg := run_fg_of_held hq
  refine ⟨⟨?_, todo_of_rest ?_, ?_⟩, ?_⟩ <;> rw [hfg]
  · exact Nat.sub_eq_zero_of_le hend
  · exact hrest
  · exact hout

theorem AgentAt.write {a : Addr} {v : Word} (h : AgentAt (.write a v :: x :: rest) out s)
    (hq : turnsHeld 0 q = true) : AgentAt (x :: rest) out (run (.foreground :: q) s) :=
  (agentAt_run_foreground (congrArg State.fg (turn_foreground_write h.waiting h.todo)) rfl h.emitted hq (Nat.zero_le _)).1

theorem AgentAt.delay {n : Nat} (h : AgentAt (.delay n :: x :: rest) out s) (hq : turnsHeld n q = true)
    (hn : n ≤ ticksIn q) : AgentAt (x :: rest) out (run (.foreground :: q) s) :=
  (agentAt_run_foreground (congrArg State.fg (turn_foreground_delay h.waiting h.todo)) rfl h.emitted hq hn).1

theorem AgentAt.read {a : Addr} (h : AgentAt (.read a .d :: x :: rest) out s) (hq : turnsHeld 0 q = true) :
    AgentAt (x :: rest) out (run (.foreground :: q) s) ∧ (run (.foreground :: q) s).fg.d = memRead a s :=
  agentAt_run_foreground (congrArg State.fg (turn_foreground_read h.waiting h.todo)) rfl h.emitted hq (Nat.zero_le _)

theorem AgentAt.emit (h : AgentAt (.emit :: rest) out s) :
    (turn .foreground s).fg.emitted = s.fg.d :: out ∧ (turn .foreground s).fg.rest = rest := by
  rw [turn_foreground_emit h.waiting h.todo]
  exact ⟨congrArg _ h.emitted, rfl⟩

end stages

/-! ### The pin, stretch by stretch -/

/-- The pin is at level `v` at every moment of the run. -/
def PinStays (v : Bool) (es : List Event) (s : State) : Prop := ∀ p, p <+: es → trigOut (run p s) = v

/-- A run cut at one event. -/
theorem PinStays.append_cons {v : Bool} {es fs : List Event} {e : Event} {s : State} (h : PinStays v es s)
    (h' : PinStays v fs (turn e (run es s))) : PinStays v (es ++ e :: fs) s := by
  intro p hp
  rcases prefix_of_cut hp with hp | ⟨q, hq, rfl⟩
  · exact h p hp
  · rw [run_append]
    exact h' q hq

/-- An event that changes no `TRIG` unless the foreground agent acts: no reset, no write of `TRIGR` by another master. -/
def KeepsPin (e : Event) : Prop := (∀ c, e ≠ .reset c) ∧ writesTrigr e = false

theorem pinStays_of_held {v : Bool} {es : List Event} {s : State} (hs : s.trig = v)
    (h : turnsHeld s.fg.waiting es = true) (hk : ∀ e ∈ es, KeepsPin e) : PinStays v es s := fun _ hp =>
  (run_trig_of_held (turnsHeld_prefix hp h) (fun e he => (hk e (hp.subset he)).1) (fun e he => (hk e (hp.subset he)).2)).trans hs

theorem PinStays.trig_run {v : Bool} {es : List Event} {s : State} (h : PinStays v es s) : (run es s).trig = v :=
  h es List.prefix_rfl

section stretches
variable {s : State} {q : List Event} {v : Bool} {rest : List Action} {out : List Word}

theorem AgentAt.pin_write {w : Word} (h : AgentAt (.write addrTrigr w :: rest) out s) (hq : turnsHeld 0 q = true)
    (hk : ∀ e ∈ q, KeepsPin e) : PinStays (w.getLsbD 0) q (turn .foreground s) := by
  rw [turn_foreground_write h.waiting h.todo]
  exact pinStays_of_held (by simp) hq hk

theorem AgentAt.pin_delay {n : Nat} (h : AgentAt (.delay n :: rest) out s) (hs : s.trig = v)
    (hq : turnsHeld n q = true) (hk : ∀ e ∈ q, KeepsPin e) : PinStays v q (turn .foreground s) := by
  rw [turn_foreground_delay h.waiting h.todo]
  exact pinStays_of_held hs hq hk

theorem AgentAt.pin_read {a : Addr} (h : AgentAt (.read a .d :: rest) out s) (hs : s.trig = v)
    (hq : turnsHeld 0 q = true) (hk : ∀ e ∈ q, KeepsPin e) : PinStays v q (turn .foreground s) := by
  rw [turn_foreground_read h.waiting h.todo]
  exact pinStays_of_held hs hq hk

theorem AgentAt.pin_emit (h : AgentAt (.emit :: rest) out s) (hs : s.trig = v) : PinStays v [] (turn .foreground s) := by
  rw [turn_foreground_emit h.waiting h.todo]
  exact pinStays_of_held hs rfl (by simp)

end stretches

section cycle
variable {s : State} {a hold b wait c : List Event} {out : List Word}

/-! ### The agent over one iteration -/

theorem AgentAt.deassert (hs : AgentAt runCycle out s) (h : OneCycle a hold b wait c) :
    AgentAt [.write addrTrigr 0, .delay Config.cycleWaitTicks, .read addrDist .d, .emit] out
      (run (.foreground :: a ++ .foreground :: hold) s) := by
  obtain ⟨ha, hhold, -, -, -, hten, -⟩ := h
  rw [run_append]
  exact (hs.write ha).delay hhold hten

theorem AgentAt.readDist (hs : AgentAt runCycle out s) (h : OneCycle a hold b wait c) :
    AgentAt [.read addrDist .d, .emit] out
      (run (.foreground :: a ++ .foreground :: hold ++ .foreground :: b ++ .foreground :: wait) s) := by
  have hdeassert := hs.deassert h
  obtain ⟨-, -, hb, hwait, -, -, hhalf⟩ := h
  rw [run_append, run_append]
  exact (hdeassert.write hb).delay hwait hhalf

/-- An iteration emits the distance as it is at the end of the wait, and is finished. -/
theorem AgentAt.cycle (hs : AgentAt runCycle out s) (h : OneCycle a hold b wait c) :
    (run (cycleSchedule a hold b wait c) s).fg.emitted =
      (run (.foreground :: a ++ .foreground :: hold ++ .foreground :: b ++ .foreground :: wait) s).dist :: out ∧
    (run (cycleSchedule a hold b wait c) s).fg.rest = [] := by
  have hread := hs.readDist h
  obtain ⟨-, -, -, -, hc, -, -⟩ := h
  obtain ⟨hat, hd⟩ := hread.read hc
  rw [cycleSchedule, run_append, run_append]
  rw [memRead_dist] at hd
  rw [← hd]
  exact hat.emit

/-! ### The pin over one iteration -/

theorem AgentAt.pin_asserted (hs : AgentAt runCycle out s) (h : OneCycle a hold b wait c)
    (hk : ∀ e ∈ a ++ hold, KeepsPin e) : PinStays true (a ++ .foreground :: hold) (turn .foreground s) := by
  simp only [List.forall_mem_append] at hk
  obtain ⟨hka, hkhold⟩ := hk
  obtain ⟨ha, hhold, -, -, -, -, -⟩ := h
  have hpa := hs.pin_write ha hka
  exact hpa.append_cons ((hs.write ha).pin_delay hpa.trig_run hhold hkhold)

theorem AgentAt.pin_deasserted
    (hs : AgentAt [.write addrTrigr 0, .delay Config.cycleWaitTicks, .read addrDist .d, .emit] out s)
    (h : OneCycle a hold b wait c) (hk : ∀ e ∈ b ++ wait ++ c, KeepsPin e) :
    PinStays false (b ++ .foreground :: wait ++ .foreground :: c ++ [.foreground]) (turn .foreground s) := by
  simp only [List.forall_mem_append] at hk
  obtain ⟨⟨hkb, hkwait⟩, hkc⟩ := hk
  obtain ⟨-, -, hb, hwait, hc, -, hhalf⟩ := h
  have hdelay := hs.write hb
  have hread := hdelay.delay hwait hhalf
  have hemit := (hread.read hc).1
  have hpb := hs.pin_write hb hkb
  have hpwait := hdelay.pin_delay hpb.trig_run hwait hkwait
  have hpc := hread.pin_read hpwait.trig_run hc hkc
  have hpemit := hemit.pin_emit hpc.trig_run
  simpa using hpb.append_cons (hpwait.append_cons (hpc.append_cons hpemit))

/-- Where no other master writes `TRIGR`, only the agent's two writes move the pin (R112). -/
theorem AgentAt.pinFollowsTheCycle (hs : AgentAt runCycle out s) (h : OneCycle a hold b wait c)
    (hr : ∀ e ∈ a ++ hold ++ b ++ wait ++ c, ∀ v, e ≠ .reset v) : PinFollowsTheCycle s a hold b wait c := by
  constructor
  · intro hw p hp
    have hpin := hs.pin_asserted h (fun e he => ⟨hr e (by simp only [List.mem_append] at he ⊢; tauto), hw e he⟩)
    exact ⟨_, runEvents_eq_run _ s, hpin p hp⟩
  · intro hw p hp
    have hpin := (hs.deassert h).pin_deasserted h (fun e he => ⟨hr e (by simp only [List.mem_append] at he ⊢; tauto), hw e he⟩)
    refine ⟨_, runEvents_eq_run _ s, ?_⟩
    rw [run_append]
    exact hpin p hp

/-! ### The echo line over one iteration -/

/-- The agent's own turns disturb neither the line nor the pipeline. -/
theorem calm_cycleSchedule {pending l : Bool} (h : ∀ e ∈ a ++ hold ++ b ++ wait ++ c, calmAt pending l e = true) :
    ∀ e ∈ cycleSchedule a hold b wait c, calmAt pending l e = true := by
  intro e he
  by_cases hfg : e = .foreground
  · rw [hfg]
    rfl
  · exact h e (by simpa [cycleSchedule, hfg] using he)

end cycle

theorem calmAt_of_quietAt {l : Bool} {e : Event} (pending : Bool) (h : quietAt l e = true) :
    calmAt pending l e = true := by
  rw [calmAt, h, Bool.true_or]

/-- An echo that comes and goes, each edge handled before the next, leaves its distance (41_distance_pipeline.md R97). -/
theorem run_echo {s : State} {rise high fall : List Event} (hf : s.edgeFlag = false) (hl : s.echoSync = false)
    (hrise : ∀ e ∈ rise, quietAt true e = true) (hhigh : ∀ e ∈ high, calmAt false true e = true)
    (hfall : ∀ e ∈ fall, quietAt false e = true) :
    ∃ u, FallHandled u (run (.sample true :: rise ++ .handle :: high ++ .sample false :: fall ++ [.handle]) s) ∧
      computeDistance u.riseTs u.cnt = BitVec.ofNat 16 ((ticksIn rise + ticksIn high) % 65536 / 58) := by
  have hr := run_riseHandled hf hl hrise
  generalize ht : run (.sample true :: rise ++ [.handle]) s = t at hr
  have hu := hr.quiet (run_calm (q := high) hr.echoSync (by rwa [hr.edgeFlag]))
  refine ⟨run high t, ?_, ?_⟩
  · have hrun : run (.sample true :: rise ++ .handle :: high ++ .sample false :: fall ++ [.handle]) s =
        run (.sample false :: fall ++ [.handle]) (run high t) := by
      rw [← ht, ← run_append, ← run_append]
      simp
    rw [hrun]
    exact run_fallHandled hu.edgeFlag hu.echoSync hfall
  · apply BitVec.eq_of_toNat_eq
    rw [computeDistance, udivDivisor_toNat, hu.riseTs, sub16_toNat_of_elapsed hu.cnt, BitVec.toNat_ofNat]
    omega

/-- Whatever comes before an echo and after it at a standing line, the distance read at the end is the echo's. -/
theorem run_echoIn_dist {s : State} {gap rise high fall tail : List Event} (hf : s.edgeFlag = false)
    (hl : s.echoSync = false) (hgap : ∀ e ∈ gap, calmAt false false e = true) (hrise : ∀ e ∈ rise, quietAt true e = true)
    (hhigh : ∀ e ∈ high, calmAt false true e = true) (hfall : ∀ e ∈ fall, quietAt false e = true)
    (htail : ∀ e ∈ tail, calmAt false false e = true) :
    (run (echoIn gap rise high fall tail) s).dist = BitVec.ofNat 16 ((ticksIn rise + ticksIn high) % 65536 / 58) := by
  have hbefore := run_calm (q := gap) hl (by rwa [hf])
  obtain ⟨u, hu, hdist⟩ := run_echo (hbefore.edgeFlag.trans hf) (hbefore.echoSync.trans hl) hrise hhigh hfall
  have hafter := run_calm (q := tail) hu.echoSync (by rwa [hu.edgeFlag])
  have hcut : echoIn gap rise high fall tail =
      gap ++ (.sample true :: rise ++ .handle :: high ++ .sample false :: fall ++ [.handle]) ++ tail := by simp [echoIn]
  rw [hcut, run_append, run_append, hafter.dist, hu.dist, hdist]

/-- No reset comes in the wait for an echo. -/
theorem ne_reset_of_mem_echoIn {gap rise high fall tail : List Event} (hgap : ∀ e ∈ gap, calmAt false false e = true)
    (hrise : ∀ e ∈ rise, quietAt true e = true) (hhigh : ∀ e ∈ high, calmAt false true e = true)
    (hfall : ∀ e ∈ fall, quietAt false e = true) (htail : ∀ e ∈ tail, calmAt false false e = true) {e : Event}
    (he : e ∈ echoIn gap rise high fall tail) (v : Option Word) : e ≠ .reset v := by
  simp only [echoIn, List.mem_append, List.mem_cons, or_assoc] at he
  rcases he with he | rfl | he | rfl | he | rfl | he | rfl | he
  · exact ne_reset_of_calm (hgap e he) v
  · exact Event.noConfusion
  · exact ne_reset_of_calm (calmAt_of_quietAt false (hrise e he)) v
  · exact Event.noConfusion
  · exact ne_reset_of_calm (hhigh e he) v
  · exact Event.noConfusion
  · exact ne_reset_of_calm (calmAt_of_quietAt false (hfall e he)) v
  · exact Event.noConfusion
  · exact ne_reset_of_calm (htail e he) v

end Sys2Proof.Machine
end

section
/-! PROOFS. One iteration of `RUN_CYCLE`, with and without an echo (42_bus_and_trigger.md R104, R112 to R115; 95_test_vectors.md S6, S7,
P1, P5). -/

namespace Sys2Proof.Machine

/-- Settles O53: the distance at the end of the wait is the one from before, as no edge is handled. -/
theorem cycleWithoutEchoEmitsTheOldReading : Obligations.CycleWithoutEchoEmitsTheOldReading := by
  intro s a hold b wait c ht hw h hcalm
  have hs : AgentAt runCycle s.fg.emitted s := ⟨hw, ht, rfl⟩
  have hsched := calm_cycleSchedule hcalm
  have hwait : (run (.foreground :: a ++ .foreground :: hold ++ .foreground :: b ++ .foreground :: wait) s).dist = s.dist :=
    (run_calm rfl (fun e he => hsched e (List.mem_append_left _ (List.mem_append_left _ he)))).dist
  obtain ⟨hemitted, hrest⟩ := hs.cycle h
  rw [hwait] at hemitted
  exact ⟨⟨_, runEvents_eq_run _ s, hemitted, (run_calm rfl hsched).dist, hrest⟩,
    hs.pinFollowsTheCycle h (fun e he => ne_reset_of_calm (hcalm e he))⟩

/-- Settles O52: nothing moves the line before the echo, and nothing handles an edge after it, so the agent reads the echo's distance. -/
theorem cycleWithEchoEmitsItsDistance : Obligations.CycleWithEchoEmitsItsDistance := by
  intro s a hold b gap rise high fall tail c ht hw hf hl h hcalm hrise hhigh hfall
  simp only [List.forall_mem_append] at hcalm
  obtain ⟨⟨⟨⟨⟨ha, hhold⟩, hb⟩, hgap⟩, htail⟩, hc⟩ := hcalm
  have hs : AgentAt runCycle s.fg.emitted s := ⟨hw, ht, rfl⟩
  have hlead : ∀ e ∈ .foreground :: a ++ .foreground :: hold ++ .foreground :: b ++ .foreground :: gap,
      calmAt false false e = true := by
    simp only [List.forall_mem_append, List.forall_mem_cons]
    exact ⟨⟨⟨⟨rfl, ha⟩, rfl, hhold⟩, rfl, hb⟩, rfl, hgap⟩
  have hdist := run_echoIn_dist hf hl hlead hrise hhigh hfall htail
  obtain ⟨hemitted, hrest⟩ := hs.cycle h
  have hwait : .foreground :: a ++ .foreground :: hold ++ .foreground :: b ++
      .foreground :: echoIn gap rise high fall tail =
        echoIn (.foreground :: a ++ .foreground :: hold ++ .foreground :: b ++ .foreground :: gap) rise high fall tail := by
    simp [echoIn]
  rw [hwait, hdist] at hemitted
  refine ⟨⟨_, runEvents_eq_run _ s, hemitted, fun hk => ?_, hrest⟩, hs.pinFollowsTheCycle h ?_⟩
  · rwa [Nat.mod_eq_of_lt (by omega)] at hemitted
  · simp only [List.forall_mem_append]
    exact ⟨⟨⟨⟨fun e he => ne_reset_of_calm (ha e he), fun e he => ne_reset_of_calm (hhold e he)⟩,
      fun e he => ne_reset_of_calm (hb e he)⟩, fun e he => ne_reset_of_mem_echoIn hgap hrise hhigh hfall htail he⟩,
      fun e he => ne_reset_of_calm (hc e he)⟩

end Sys2Proof.Machine
end

section
/-! SUPPORT. What each turn leaves in `TRIG` (42_bus_and_trigger.md R112), and the words of format B (30_encoding.md R64, R67 rows 10 to
27). -/

namespace Sys2Proof.Machine

theorem afterOp_trig (i : Instr) (s : State) : (afterOp i s).trig = trigStep s.trig i := by
  cases i with
  | edgeRise => exact captureEvent_trig true s
  | edgeFall => exact captureEvent_trig false s
  | _ => rfl

theorem run_trig (es : List Event) (s : State) : (run es s).trig = trigAfter (operations es s) s.trig := by
  rw [trigAfter, operations, List.foldl_map]
  refine run_eq_foldl_history (p := State.trig) (fun e s i ho => ?_) (fun e s ho => ?_) es s
  · obtain ⟨f, ht⟩ := turn_of_operation ho
    rw [ht, withFg_trig, afterOp_trig, setInputs_trig]
  · obtain ⟨f, ht⟩ := turn_of_no_operation ho
    rw [ht, withFg_trig]

/-- The word of a read, by its address. -/
theorem decode_readWord (a : Addr) (v : Word) : decode ⟨.B, 0x10000 * a.toNat + v.toNat⟩ = .ok (decodeRead a) := by
  simpa [busWord, decodeBus] using decode_busWord false a v

/-- The word of a write, by its address. -/
theorem decode_writeWord (a : Addr) (v : Word) :
    decode ⟨.B, 0x80000 + 0x10000 * a.toNat + v.toNat⟩ = .ok (decodeWrite a v) := by
  simpa [busWord, decodeBus] using decode_busWord true a v

end Sys2Proof.Machine
end

section
/-! PROOFS. The register port, the trigger pin and the delay (42_bus_and_trigger.md R100 to R112, R114). -/

namespace Sys2Proof.Machine

/-- Settles O34: each operation moves the pin as `trigStep` says, and a turn without one leaves it. -/
theorem triggerPinFollowsTheLastTriggerOperation : Obligations.TriggerPinFollowsTheLastTriggerOperation :=
  ⟨fun _ => rfl, fun es s => ⟨_, runEvents_eq_run es s, run_trig es s⟩⟩

/-- Settles O50: the delay outlasts the run, so every turn of the agent in it is held. -/
theorem delayHoldsTheForegroundAgent : Obligations.DelayHoldsTheForegroundAgent := by
  intro es s h
  have hheld := turnsHeld_of_ticksIn_lt h
  exact ⟨_, runEvents_eq_run es s, foregroundOperations_of_held hheld, run_fg_of_held hheld⟩

/-- Settles O58: `run_tickN`, by induction on the number of ticks. -/
theorem ticksCountDownTheDelay : Obligations.TicksCountDownTheDelay := fun n s =>
  (runEvents_eq_run (tickN n) s).trans (congrArg _ (run_tickN n s))

/-- Settles O26: `decode_readWord` at the eight addresses; the value of `STATUS` is `statusWord_toNat`. -/
theorem readsReturnTheirWord : Obligations.ReadsReturnTheirWord := by
  refine ⟨fun v => ?_, fun s => ?_⟩
  · exact ⟨decode_readWord 0 v, decode_readWord 1 v, decode_readWord 2 v, decode_readWord 3 v, decode_readWord 4 v,
      decode_readWord 5 v, decode_readWord 6 v, decode_readWord 7 v⟩
  · exact ⟨exec_eq_afterOp _ s, exec_eq_afterOp _ s, ⟨statusWord s, exec_eq_afterOp _ s, statusWord_toNat s⟩,
      exec_eq_afterOp _ s, exec_eq_afterOp _ s, exec_eq_afterOp _ s, exec_eq_afterOp _ s, exec_eq_afterOp _ s⟩

/-- Settles O27: `decode_writeWord` at the eight addresses; the effects are those of `afterOp`. -/
theorem writesHaveTheirStatedEffect : Obligations.WritesHaveTheirStatedEffect := by
  refine ⟨fun v => ?_, fun s => ?_⟩
  · exact ⟨decode_writeWord 0 v, decode_writeWord 1 v, decode_writeWord 2 v, decode_writeWord 3 v, decode_writeWord 4 v,
      decode_writeWord 5 v, decode_writeWord 6 v, decode_writeWord 7 v⟩
  · exact ⟨exec_eq_afterOp _ s, rfl, exec_eq_afterOp _ s, rfl, exec_eq_afterOp _ s, exec_eq_afterOp _ s, exec_eq_afterOp _ s,
      exec_eq_afterOp _ s, exec_eq_afterOp _ s, exec_eq_afterOp _ s, exec_eq_afterOp _ s, exec_eq_afterOp _ s⟩

/-- Settles O28: a turn of the bus port is `afterBus`, whichever operation its word selects. -/
theorem busOperationIsAReadOrAWrite : Obligations.BusOperationIsAReadOrAWrite := fun a v s =>
  ⟨perform_read a v s, perform_write a v s⟩

end Sys2Proof.Machine
end

section
/-! SUPPORT. One clock edge as a synchronous register transfer: what each of its four steps does as one update of the registers, and the
four together (60_exceptions.md R126, 92_eei_decisions.md D18). -/

namespace Sys2Proof.Machine

/-- The next state when every register reads the old values on the edge: each element by its own transfer, and the agent's count of
ticks. -/
def registerTransfer (p : Ports) (s : State) : State :=
  { s with
    cnt       := if p.tick then s.cnt + 1 else s.cnt
    echoSync  := if p.sampled then p.echoIn else s.echoSync
    capt      := if p.sampled && (p.echoIn != s.echoSync) && !s.edgeFlag then s.cnt else s.capt
    pol       := if p.sampled && (p.echoIn != s.echoSync) && !s.edgeFlag then p.echoIn else s.pol
    edgeFlag  := if s.edgeFlag then !p.commit else p.sampled && (p.echoIn != s.echoSync)
    riseTs    := if p.commit && s.edgeFlag && s.pol then s.capt else s.riseTs
    dist      := if p.commit && s.edgeFlag && !s.pol then computeDistance s.riseTs s.capt else s.dist
    edgeState := if p.commit && s.edgeFlag then edgeStateAfter s.pol else s.edgeState
    seqErr    := (p.commit && s.edgeFlag && unawaited s.pol s.edgeState) ||
      (s.seqErr && !(p.busSel && p.busWe && (p.busAddr == addrStatus) && p.busWdata.getLsbD 3))
    trig      := if p.busSel && p.busWe && (p.busAddr == addrTrigr) then p.busWdata.getLsbD 0 else s.trig
    readData  := if p.busSel && !p.busWe then some (memRead p.busAddr s) else s.readData
    fg        := if p.tick then s.fg.onTick else s.fg }

/-! ### The four steps -/

theorem run_presentIf (c : Bool) (e : Event) (s : State) : run (presentIf c e) s = if c then turn e s else s := by
  cases c <;> rfl

/-- The write clears `SEQ_ERR` through one mask (20_memory.md R43). -/
theorem memWrite_seqErr_eq_and (a : Addr) (v : Word) (s : State) :
    (memWrite a v s).seqErr = (s.seqErr && !((a == addrStatus) && v.getLsbD 3)) := by
  by_cases h : a = addrStatus ∧ v.getLsbD 3 = true
  · simp [h]
  · have hmask : ((a == addrStatus) && v.getLsbD 3) = false := by simpa using h
    rw [memWrite_seqErr, if_neg h, hmask, Bool.not_false, Bool.and_true]

/-- A bus step changes `SEQ_ERR`, `TRIG` and the read data, each under its own enable. -/
theorem run_presentIf_bus (c we : Bool) (a : Addr) (v : Word) (s : State) :
    run (presentIf c (.bus we a v)) s =
      { s with
        seqErr   := s.seqErr && !(c && we && (a == addrStatus) && v.getLsbD 3)
        trig     := if c && we && (a == addrTrigr) then v.getLsbD 0 else s.trig
        readData := if c && !we then some (memRead a s) else s.readData } := by
  rw [run_presentIf]
  cases c with
  | false => simp
  | true =>
    cases we with
    | false => simp [turn, afterBus, busRead]
    | true => apply State.ext <;> simp [turn, afterBus, memWrite_seqErr_eq_and, -memWrite_seqErr]

/-- The capture needs a latch that is free and a level that is new; the detector's memory follows the line in any case. -/
theorem run_presentIf_sample (c l : Bool) (s : State) :
    run (presentIf c (.sample l)) s =
      { s with
        echoSync := if c then l else s.echoSync
        capt     := if c && (l != s.echoSync) && !s.edgeFlag then s.cnt else s.capt
        pol      := if c && (l != s.echoSync) && !s.edgeFlag then l else s.pol
        edgeFlag := s.edgeFlag || (c && (l != s.echoSync)) } := by
  rw [run_presentIf]
  cases c with
  | false => simp
  | true =>
    by_cases hl : l = s.echoSync
    · simp [turn, hl]
    · cases hf : s.edgeFlag <;> simp [turn, hl, hf, followLine, captureEvent]

/-- The pipeline's step, presented only where an event is pending. -/
theorem run_presentIf_handle {c : Bool} {s : State} (hc : c = true → s.edgeFlag = true) :
    run (presentIf c .handle) s =
      { s with
        edgeFlag  := s.edgeFlag && !c
        riseTs    := if c && s.pol then s.capt else s.riseTs
        dist      := if c && !s.pol then computeDistance s.riseTs s.capt else s.dist
        edgeState := if c then edgeStateAfter s.pol else s.edgeState
        seqErr    := (c && unawaited s.pol s.edgeState) || s.seqErr } := by
  rw [run_presentIf]
  cases c with
  | false => simp
  | true =>
    rw [if_pos rfl, turn_handle_pending (hc rfl)]
    cases hp : s.pol <;> apply State.ext <;> simp [afterOp, seqErrAfter, Bool.or_comm, hp]

theorem run_presentIf_tick (c : Bool) (s : State) :
    run (presentIf c .tick) s =
      { s with cnt := if c then s.cnt + 1 else s.cnt, fg := if c then s.fg.onTick else s.fg } := by
  cases c <;> rfl

/-! ### The whole edge -/

theorem clockEvents_of_no_reset {p : Ports} (h : p.rst = false) (s : State) :
    clockEvents p s =
      presentIf p.busSel (.bus p.busWe p.busAddr p.busWdata) ++ presentIf p.sampled (.sample p.echoIn)
        ++ presentIf (p.commit && s.edgeFlag) .handle ++ presentIf p.tick .tick := by
  rw [clockEvents, h]
  rfl

/-- The steps in their order are the register transfer: the pipeline acts only on an event pending before the edge, and that event
keeps the sample before it from touching the latch, so the pipeline too reads old values. -/
theorem clockEdge_eq_registerTransfer {p : Ports} (h : p.rst = false) (s : State) :
    clockEdge p s = .next (registerTransfer p s) := by
  rw [clockEdge, runEvents_eq_run, clockEvents_of_no_reset h, run_append, run_append, run_append, run_presentIf_bus,
    run_presentIf_sample, run_presentIf_handle (by simp +contextual), run_presentIf_tick, registerTransfer]
  cases s.edgeFlag with
  | false => simp -- the pipeline's step is not on the edge, so the sample may capture
  | true => simp -- the sample leaves the latch as the pipeline finds it

end Sys2Proof.Machine
end

section
/-! PROOFS. Completion and the clock edge (60_exceptions.md R120, R126). -/

namespace Sys2Proof.Machine

/-- Settles O47: `clockEdge_eq_registerTransfer`, element by element. -/
theorem clockEdgeEqualsRegisterTransfer : Obligations.ClockEdgeEqualsRegisterTransfer := fun _ s h =>
  ⟨_, clockEdge_eq_registerTransfer h s, rfl, rfl, rfl, rfl, rfl, rfl, rfl, rfl, rfl, rfl, rfl⟩

/-- Settles O39: `afterOp` and `turn` are the next states, and a word decodes exactly if it is well formed. -/
theorem everyStepCompletes : Obligations.EveryStepCompletes :=
  ⟨fun i s => ⟨_, exec_eq_afterOp i s⟩, fun w => (wf_iff_exists_decode w).1, fun _ => ⟨_, perform_eq_turn _ _⟩⟩

/-- Settles O48: the order is `clockEvents`, and (a) to (e) are read off the register transfer. -/
theorem clockEdgeFollowsTheFixedOrder : Obligations.ClockEdgeFollowsTheFixedOrder := by
  refine ⟨fun p s h => ?_, fun p s h => congrArg (runEvents · s) (clockEvents_of_no_reset h s),
    fun p s h hs ht hf he => ⟨_, clockEdge_eq_registerTransfer h s, ?_⟩,
    fun p s h hs hc hf => ⟨_, clockEdge_eq_registerTransfer h s, ?_⟩,
    fun p s h _ _ _ _ hc hf hu => ⟨_, clockEdge_eq_registerTransfer h s, ?_⟩,
    fun p s h hb hw => ⟨_, clockEdge_eq_registerTransfer h s, ?_⟩⟩
  · rw [clockEdge, clockEvents, h, runEvents_eq_run, perform_eq_turn]
    rfl
  · simp [registerTransfer, hs, ht, hf, he]
  · simp [registerTransfer, hs, hc, hf]
  · simp [registerTransfer, hc, hf, hu]
  · simp [registerTransfer, hb, hw]

end Sys2Proof.Machine
end

section
/-! SUPPORT. A captured edge over lost edges (40_counter_and_capture.md R87, 70_reset_and_hazards.md R145). -/

namespace Sys2Proof.Machine

/-- What a quiet stretch keeps does not depend on the level the line stands at. -/
theorem Quiet.relevel {s t : State} {n : Nat} (h : Quiet s t n) (l : Bool) :
    Quiet (followLine l s) (followLine l t) n :=
  { h with echoSync := rfl }

/-- A lost edge leaves its level and nothing else: a quiet stretch that goes on after it is one from a line that stood at the new level
all along. -/
theorem Quiet.lostEdge {s t : State} {n : Nat} {prev l : Bool} {q : List Event} (h : Quiet (followLine prev s) t n)
    (hf : s.edgeFlag = true) (hl : prev = !l) (hq : ∀ e ∈ q, quietAt l e = true) :
    Quiet (followLine l s) (run (.sample l :: q) t) (n + ticksIn q) := by
  have hlost : turn (.sample l) t = followLine l t :=
    turn_sample_lost (h.edgeFlag.trans hf) (h.echoSync.trans hl)
  rw [run_cons, hlost]
  exact (h.relevel l).trans (run_quiet rfl hq)

/-- An edge sampled with the latch free, and the quiet stretch after it. -/
theorem run_edge_quiet {l : Bool} {s : State} {q : List Event} (hl : s.echoSync = !l)
    (hq : ∀ e ∈ q, quietAt l e = true) :
    Quiet (followLine l (captureEvent l s)) (run (.sample l :: q) s) (ticksIn q) := by
  rw [run_cons, turn_sample_edge hl]
  exact run_quiet rfl hq

/-- A captured edge is handled with its own polarity and the counter value of its sample, whatever level the line has gone to since
(R87). -/
theorem turn_handle_captured {r l : Bool} {s u : State} {n : Nat} (hf : s.edgeFlag = false)
    (hu : Quiet (followLine l (captureEvent r s)) u n) :
    turn .handle u = afterOp (if r then .handleRise s.cnt else .handleFall s.cnt) u := by
  have hflag : u.edgeFlag = true := by simpa using hu.edgeFlag
  have hcapt : u.capt = s.cnt := by simpa [hf] using hu.capt
  have hpol : u.pol = r := by simpa [hf] using hu.pol
  rw [turn_handle_pending hflag, hcapt, hpol]

/-- What a captured rise, `n` ticks and its handling leave, the line having gone to level `l` since: `RiseHandled` with any level, and
with what a rise not awaited shows (R87, 41_distance_pipeline.md R91). -/
structure CapturedRiseHandled (l : Bool) (s t : State) (n : Nat) : Prop where
  cnt : t.cnt.toNat = (s.cnt.toNat + n) % 65536
  echoSync : t.echoSync = l
  edgeFlag : t.edgeFlag = false
  riseTs : t.riseTs = s.cnt
  dist : t.dist = s.dist
  edgeState : t.edgeState = .awaitingFall
  seqErr : t.seqErr = true → s.seqErr = true ∨ s.edgeState = .awaitingFall
  reported : s.edgeState = .awaitingFall → t.seqErr = true

theorem capturedRiseHandled {l : Bool} {s u : State} {n : Nat} (hf : s.edgeFlag = false)
    (hu : Quiet (followLine l (captureEvent true s)) u n) : CapturedRiseHandled l s (turn .handle u) n := by
  have hcnt : u.cnt.toNat = (s.cnt.toNat + n) % 65536 := by simpa using hu.cnt
  have hdist : u.dist = s.dist := by simpa using hu.dist
  have hstate : u.edgeState = s.edgeState := by simpa using hu.edgeState
  rw [turn_handle_captured hf hu]
  refine ⟨hcnt, hu.echoSync, rfl, rfl, hdist, rfl, fun h => seqErrAfter_quiet (hu.relevel true) h, fun hs => ?_⟩
  simp [afterOp, seqErrAfter, unawaited_eq, hstate, hs, edgeStateAfter]

/-- A captured rise with the line back at its level is handled as one without lost edges. -/
theorem CapturedRiseHandled.riseHandled {s t : State} {n : Nat} (h : CapturedRiseHandled true s t n) : RiseHandled s t n where
  cnt := h.cnt
  echoSync := h.echoSync
  edgeFlag := h.edgeFlag
  riseTs := h.riseTs
  edgeState := h.edgeState
  seqErr := h.seqErr

/-- The fall handled next after a rise is paired with it: the distance is of the ticks between the two samples. -/
theorem RiseHandled.dist_of_fallHandled {s u t : State} {n : Nat} (hrise : RiseHandled s u n) (hfall : FallHandled u t) :
    t.dist.toNat = n % 65536 / 58 := by
  rw [hfall.dist, computeDistance, udivDivisor_toNat, hrise.riseTs, sub16_toNat_of_elapsed hrise.cnt]

/-- From `AwaitingRise`, a rise and then a fall are the edges awaited (10_state.md R30). -/
theorem RiseHandled.seqErr_of_fallHandled {s u t : State} {n : Nat} (hrise : RiseHandled s u n) (hfall : FallHandled u t)
    (hs : s.edgeState = .awaitingRise) (ht : t.seqErr = true) : s.seqErr = true := by
  have hu := (hfall.seqErr ht).resolve_right (by rw [hrise.edgeState]; decide)
  exact (hrise.seqErr hu).resolve_right (by rw [hs]; decide)

end Sys2Proof.Machine
end

section
/-! SUPPORT. What reset leaves, which turns handle an edge, and the two predicates kept from a reset on
(70_reset_and_hazards.md R140, R142, R145). -/

namespace Sys2Proof.Machine

theorem justReset_afterOp_reset (s : State) : (afterOp .reset s).JustReset :=
  ⟨rfl, rfl, rfl, rfl, rfl, rfl, rfl, rfl, rfl⟩

/-! ### The edges a run handles -/

/-- Only the pipeline's turn on a pending event handles an edge, the captured one (41_distance_pipeline.md R90). -/
theorem handledPolarity_operationOf (e : Event) (s : State) :
    (operationOf e s).bind handledPolarity = if e = .handle ∧ s.edgeFlag = true then some s.pol else none := by
  rw [operationOf_eq]
  cases e with
  | tick => rfl
  | reset c => rfl
  | sample l => cases s.echoSync <;> cases l <;> rfl
  | handle => cases s.edgeFlag <;> cases s.pol <;> rfl
  | bus we a v => exact handledPolarity_decodeBus we a v
  | foreground =>
    cases s.fg.busRequest with
    | none => rfl
    | some q => exact handledPolarity_decodeBus q.1 q.2.1 q.2.2

/-- The polarities a run handles, turn by turn. -/
theorem handledPolarities_cons (e : Event) (es : List Event) (s : State) :
    (operations (e :: es) s).filterMap handledPolarity =
      (if e = .handle ∧ s.edgeFlag = true then [s.pol] else []) ++ (operations es (turn e s)).filterMap handledPolarity := by
  have hnow : (operationOf e s).toList.filterMap handledPolarity = ((operationOf e s).bind handledPolarity).toList := by
    cases operationOf e s with
    | none => rfl
    | some i => cases h : handledPolarity i <;> simp [h]
  rw [operations_cons, List.filterMap_append, hnow, handledPolarity_operationOf]
  split <;> rfl

/-- The pipeline leaves the edge machine as the polarity handled says (41_distance_pipeline.md R99). -/
theorem turn_handle_edgeState {s : State} (hf : s.edgeFlag = true) :
    (turn .handle s).edgeState = edgeStateAfter s.pol := by
  rw [turn_handle_pending hf]
  cases s.pol <;> rfl

/-- A flag that is clear at the start of a run stays clear where every edge handled was awaited (10_state.md R30). -/
theorem seqErrOf_eq_false {hs : List (Event × State × Instr)} (h : ∀ x ∈ hs, handledUnawaited x = false) :
    seqErrOf hs false = false := by
  induction hs with
  | nil => rfl
  | cons x hs ih =>
    obtain ⟨hx, hrest⟩ := List.forall_mem_cons.1 h
    have hstep : seqErrStep false x = false := by
      unfold seqErrStep
      split
      · rfl
      · rfl
      · exact hx
    rw [seqErrOf, List.foldl_cons, hstep]
    exact ih hrest

/-! ### Until the first edge is handled -/

theorem State.JustReset.awaitsFirstRise {s : State} (h : s.JustReset) : AwaitsFirstRise s := by
  obtain ⟨hecho, -, -, hflag, -⟩ := h
  simp [AwaitsFirstRise, hflag, hecho]

/-- Lost edges do not touch the pending rise, and with nothing pending the line is low, so that the next edge is a rise (R142 (c)). -/
theorem turn_awaitsFirstRise {e : Event} {s : State} (h : AwaitsFirstRise s) (he : ¬ (e = .handle ∧ s.edgeFlag = true)) :
    AwaitsFirstRise (turn e s) := by
  rcases turn_kind e s with hq | ⟨c, rfl⟩ | rfl | hpending
  · have q := turn_calm rfl hq
    rwa [AwaitsFirstRise, q.edgeFlag, q.pol, q.echoSync]
  · exact (justReset_afterOp_reset _).awaitsFirstRise
  · cases hf : s.edgeFlag with
    | false =>
      have hlow : s.echoSync = false := by simpa [AwaitsFirstRise, hf] using h
      rw [turn_sample_free hf (Bool.not_not _).symm, hlow]
      exact rfl
    | true =>
      rw [turn_sample_lost hf (Bool.not_not _).symm]
      simpa [AwaitsFirstRise, hf] using h
  · exact absurd hpending he

theorem head_handledPolarities_of_awaitsFirstRise {es : List Event} {s : State} (h : AwaitsFirstRise s) :
    ((operations es s).filterMap handledPolarity).head? ≠ some false := by
  induction es generalizing s with
  | nil => simp
  | cons e es ih =>
    rw [handledPolarities_cons]
    by_cases he : e = .handle ∧ s.edgeFlag = true
    · have hrise : s.pol = true := by simpa [AwaitsFirstRise, he.2] using h
      simp [he, hrise]
    · rw [if_neg he]
      exact ih (turn_awaitsFirstRise h he)

/-! ### While no edge is lost -/

/-- The edge machine has followed the line, but for the one edge that may be pending, and that edge is the line's last: so stands a run
from a reset that has lost no edge (R145). -/
structure InStep (s : State) : Prop where
  edgeState : s.edgeState = edgeStateAfter (s.echoSync ^^ s.edgeFlag)
  pol : s.edgeFlag = true → s.pol = s.echoSync

theorem State.JustReset.inStep {s : State} (h : s.JustReset) : InStep s := by
  obtain ⟨hecho, -, -, hflag, -, -, hstate, -⟩ := h
  exact ⟨by rw [hstate, hecho, hflag]; rfl, by simp [hflag]⟩

theorem turn_inStep {e : Event} {s : State} (h : InStep s) (hlost : losesEdge e s = false) : InStep (turn e s) := by
  rcases turn_kind e s with hq | ⟨c, rfl⟩ | rfl | ⟨rfl, hf⟩
  · have q := turn_calm rfl hq
    constructor
    · rw [q.edgeState, q.echoSync, q.edgeFlag]; exact h.edgeState
    · rw [q.edgeFlag, q.pol, q.echoSync]; exact h.pol
  · exact (justReset_afterOp_reset _).inStep
  · have hf : s.edgeFlag = false := by simpa [losesEdge] using hlost
    rw [turn_sample_free hf (Bool.not_not _).symm]
    exact ⟨by simpa [hf] using h.edgeState, fun _ => rfl⟩
  · have hfree := turn_handle_edgeFlag s
    constructor
    · rw [turn_handle_edgeState hf, turn_handle_echoSync, hfree, Bool.xor_false, h.pol hf]
    · simp [hfree]

/-- The edge pending is the one the edge machine awaits. -/
theorem InStep.awaited {s : State} (h : InStep s) (hf : s.edgeFlag = true) : unawaited s.pol s.edgeState = false := by
  rw [h.edgeState, h.pol hf, hf, unawaited_eq]
  cases s.echoSync <;> rfl

theorem InStep.handledUnawaited_eq_false {e : Event} {s : State} {i : Instr} (h : InStep s) (hop : operationOf e s = some i) :
    handledUnawaited (e, s, i) = false := by
  have hpol := handledPolarity_operationOf e s
  rw [hop, Option.bind_some] at hpol
  by_cases he : e = .handle ∧ s.edgeFlag = true
  · simp only [handledUnawaited, hpol, if_pos he]
    exact h.awaited he.2
  · simp only [handledUnawaited, hpol, if_neg he]

theorem handledUnawaited_of_noEdgeLost {es : List Event} {s : State} (h : InStep s) (hlost : noEdgeLost es s = true) :
    ∀ x ∈ history es s, handledUnawaited x = false := by
  induction es generalizing s with
  | nil => exact List.forall_mem_nil _
  | cons e es ih =>
    rw [noEdgeLost_cons, Bool.and_eq_true, Bool.not_eq_true'] at hlost
    rw [history_cons, List.forall_mem_append]
    refine ⟨fun x hx => ?_, ih (turn_inStep h hlost.1) hlost.2⟩
    obtain ⟨i, hi, rfl⟩ := List.mem_map.1 hx
    exact h.handledUnawaited_eq_false (Option.mem_toList.1 hi)

end Sys2Proof.Machine
end

section
/-! PROOFS. Reset and the hazards (70_reset_and_hazards.md R140, R142, R145). -/

namespace Sys2Proof.Machine

/-- Settles O20: the two lost edges leave the line where the captured rise left it, so what follows is one measurement. -/
theorem twoLostEdgesGoUnreported : Obligations.TwoLostEdgesGoUnreported := by
  intro s q1 q2 q3 q4 q5 hf hl hs hq1 hq2 hq3 hq4 hq5
  have hpending : (captureEvent true s).edgeFlag = true := captureEvent_edgeFlag true s
  have hheld := ((run_edge_quiet hl hq1).lostEdge hpending rfl hq2).lostEdge hpending rfl hq3
  have hrise := (capturedRiseHandled hf hheld).riseHandled
  have hhigh := hrise.quiet (run_quiet hrise.echoSync hq4)
  have hfall := run_fallHandled hhigh.edgeFlag hhigh.echoSync hq5
  rw [run_append] at hfall
  refine ⟨_, runEvents_eq_run _ s, ?_⟩
  simp only [run_append]
  exact ⟨hhigh.dist_of_fallHandled hfall, hhigh.seqErr_of_fallHandled hfall hs, hfall.edgeState⟩

/-- Settles O21: the first rise leaves the edge machine awaiting a fall and the line low, so the next edge is a rise not awaited. -/
theorem oneLostFallIsReported : Obligations.OneLostFallIsReported := by
  intro s q1 q2 q3 q4 hf hl hq1 hq2 hq3 hq4
  have hheld := (run_edge_quiet hl hq1).lostEdge (captureEvent_edgeFlag true s) rfl hq2
  have hfirst := capturedRiseHandled hf hheld
  have hlow := run_quiet hfirst.echoSync hq3
  have hfree := hlow.edgeFlag.trans hfirst.edgeFlag
  have hsecond := capturedRiseHandled hfree (run_edge_quiet (hlow.echoSync.trans hfirst.echoSync) hq4)
  have hts := congrArg BitVec.toNat hsecond.riseTs
  rw [hlow.cnt, hfirst.cnt, Nat.mod_add_mod, ← Nat.add_assoc] at hts
  refine ⟨_, runEvents_eq_run _ s, ?_⟩
  simp only [run_append]
  exact ⟨hsecond.reported (hlow.edgeState.trans hfirst.edgeState), hsecond.dist.trans (hlow.dist.trans hfirst.dist),
    hsecond.edgeState, hts⟩

/-- Settles O22: while no edge is lost, the pending edge is the one awaited (`InStep`), so nothing sets `SEQ_ERR`. -/
theorem noLostEdgeNoSequenceError : Obligations.NoLostEdgeNoSequenceError := by
  intro es s hreset hlost
  have hawaited := handledUnawaited_of_noEdgeLost hreset.inStep hlost
  obtain ⟨-, -, -, -, -, -, -, hseq, -⟩ := hreset
  refine ⟨run es s, runEvents_eq_run es s, ?_, hawaited⟩
  rw [run_seqErr, hseq, seqErrOf_eq_false hawaited]

/-- Settles O23: `AwaitsFirstRise` holds until an edge is handled, so that edge is a rise. -/
theorem firstHandledEdgeAfterResetIsARise : Obligations.FirstHandledEdgeAfterResetIsARise := fun _ _ h =>
  head_handledPolarities_of_awaitsFirstRise h.awaitsFirstRise

/-- Settles O24: after the quiet stretch the line is low and the latch free, so the sample is captured. -/
theorem echoHighAtResetIsCaptured : Obligations.EchoHighAtResetIsCaptured := by
  intro s q hreset hq
  obtain ⟨hecho, -, -, hflag, -, -, hstate, -⟩ := hreset
  have hquiet := run_quiet hecho hq
  have hrun : run (q ++ [.sample true]) s = turn (.sample true) (run q s) := run_append q _ s
  refine ⟨_, runEvents_eq_run _ s, ?_⟩
  rw [hrun, turn_sample_free (l := true) (hquiet.edgeFlag.trans hflag) (hquiet.echoSync.trans hecho)]
  exact ⟨rfl, rfl, hquiet.cnt, hquiet.edgeState.trans hstate⟩

/-- Settles O1: `STATUS` reads 0 as the weighted sum of five cleared bits. -/
theorem resetLeavesTheStatedState : Obligations.ResetLeavesTheStatedState := by
  refine ⟨decode_resetWord, fun s => ⟨_, exec_eq_afterOp .reset s, justReset_afterOp_reset s, fun c hc => ?_⟩,
    fun s c => ⟨_, perform_eq_turn _ s, justReset_afterOp_reset _, fun v hv => ?_, rfl, ?_, rfl, rfl, rfl⟩⟩
  · simp [afterOp, hc]
  · simp [turn, afterOp, hv]
  · exact BitVec.eq_of_toNat_eq (statusWord_toNat _)

/-- Settles O57: a reset assigns the block's elements and the model's own inputs only. -/
theorem resetLeavesTheEnvironmentAlone : Obligations.ResetLeavesTheEnvironmentAlone :=
  ⟨fun s => ⟨_, exec_eq_afterOp .reset s, rfl, rfl, rfl⟩, fun s _ => ⟨_, perform_eq_turn _ s, rfl, rfl, rfl⟩⟩

end Sys2Proof.Machine
end
